-- ==== Sys2Proof/Word.lean ====
section
/-! DEFINITION. The bit-vector types of the machine (00_scope.md R6: bit 0 is the least significant, every value is
unsigned). -/

namespace Sys2Proof

/-- A nibble field: a register number, a row count or a sub-opcode (30_encoding.md R71). -/
abbrev Nibble := BitVec 4

/-- The number of a general register, V0 to VF (10_state.md R20). -/
abbrev Reg := BitVec 4

/-- A byte: the contents of a general register or of one memory address (10_state.md R20, 20_memory.md R50). -/
abbrev Byte := BitVec 8

/-- A 12-bit address; its arithmetic is mod 4096 (10_state.md R25, 20_memory.md R51). -/
abbrev Addr := BitVec 12

/-- A 16-bit word: an instruction, or one entry of the call stack (30_encoding.md R70, 10_state.md R27). -/
abbrev Word := BitVec 16

/-- Register 15, the flag register (10_state.md R21). -/
abbrev regVF : Reg := 15

end Sys2Proof
end

