-- ==== Sys2Proof/Syntax.lean ====
section
/-! DEFINITION. The 37 instructions of the opcode map (30_encoding.md R74), in the table's order. Every operand has
exactly the width of its field (R71), so a term of this type is always an instruction. -/

namespace Sys2Proof

/-- One constructor per row of the opcode map. -/
inductive Instr where
  /-- `00E0`, CLS: clear the display (R161). -/
  | cls
  /-- `00EE`, RET: return from subroutine (R100). -/
  | ret
  /-- `00FE`, LOW: select normal mode (R162). -/
  | low
  /-- `00FF`, HIGH: select extended mode (R163). -/
  | high
  /-- `00Cn`, SCD n: scroll down (R164). -/
  | scd (n : Nibble)
  /-- `1nnn`, JP nnn: jump (R101). -/
  | jp (nnn : Addr)
  /-- `2nnn`, CALL nnn: call subroutine (R102). -/
  | call (nnn : Addr)
  /-- `3xnn`, SE Vx, nn: skip if equal to immediate (R103). -/
  | seImm (x : Reg) (nn : Byte)
  /-- `4xnn`, SNE Vx, nn: skip if not equal to immediate (R104). -/
  | sneImm (x : Reg) (nn : Byte)
  /-- `5xy0`, SE Vx, Vy: skip if registers equal (R105). -/
  | seReg (x y : Reg)
  /-- `9xy0`, SNE Vx, Vy: skip if registers differ (R106). -/
  | sneReg (x y : Reg)
  /-- `6xnn`, LD Vx, nn: load immediate (R120). -/
  | ldImm (x : Reg) (nn : Byte)
  /-- `7xnn`, ADD Vx, nn: add immediate (R121). -/
  | addImm (x : Reg) (nn : Byte)
  /-- `8xy0`, LD Vx, Vy: copy register (R122). -/
  | ldReg (x y : Reg)
  /-- `8xy1`, OR Vx, Vy (R123). -/
  | orReg (x y : Reg)
  /-- `8xy2`, AND Vx, Vy (R124). -/
  | andReg (x y : Reg)
  /-- `8xy3`, XOR Vx, Vy (R125). -/
  | xorReg (x y : Reg)
  /-- `8xy4`, ADD Vx, Vy: add with carry (R127). -/
  | addReg (x y : Reg)
  /-- `8xy5`, SUB Vx, Vy: subtract with the underflow flag (R128). -/
  | subReg (x y : Reg)
  /-- `8xy6`, SHR Vx, Vy: shift right; `y` is not read (R129). -/
  | shr (x y : Reg)
  /-- `8xy7`, SUBN Vx, Vy: reverse subtract (R130). -/
  | subnReg (x y : Reg)
  /-- `8xyE`, SHL Vx, Vy: shift left; `y` is not read (R131). -/
  | shl (x y : Reg)
  /-- `Annn`, LD I, nnn: load the index register (R140). -/
  | ldI (nnn : Addr)
  /-- `Bnnn`, JP V0, nnn: jump indexed by V0 (R107). -/
  | jpV0 (nnn : Addr)
  /-- `Cxnn`, RND Vx, nn: random byte masked (R132). -/
  | rnd (x : Reg) (nn : Byte)
  /-- `Dxys`, DRW Vx, Vy, s: draw a sprite (R165). -/
  | drw (x y : Reg) (n : Nibble)
  /-- `Ex9E`, SKP Vx: skip if the key is pressed (R183). -/
  | skp (x : Reg)
  /-- `ExA1`, SKNP Vx: skip if the key is not pressed (R184). -/
  | sknp (x : Reg)
  /-- `Fx07`, LD Vx, DT: read the delay timer (R180). -/
  | ldFromDelay (x : Reg)
  /-- `Fx0A`, LD Vx, K: wait for a key (R185). -/
  | waitKey (x : Reg)
  /-- `Fx15`, LD DT, Vx: set the delay timer (R181). -/
  | setDelay (x : Reg)
  /-- `Fx18`, BEEP Vx: trigger the beep; `Vx` is not read (R182). -/
  | beep (x : Reg)
  /-- `Fx1E`, ADD I, Vx: add to the index register (R141). -/
  | addI (x : Reg)
  /-- `Fx29`, LD F, Vx: point the index register at a font glyph (R142). -/
  | ldGlyph (x : Reg)
  /-- `Fx33`, LD B, Vx: store BCD (R143). -/
  | storeBcd (x : Reg)
  /-- `Fx55`, LD [I], Vx: store registers (R144). -/
  | storeRegs (x : Reg)
  /-- `Fx65`, LD Vx, [I]: load registers (R145). -/
  | loadRegs (x : Reg)
  deriving DecidableEq, Repr

end Sys2Proof
end

