-- ==== Sys2Proof/WellFormed.lean ====
section
/-! DEFINITION. Which words are well formed: the opcode map as data and its legality test (30_encoding.md R74), and the
names of the illegal groups (R76). A term of `Instr` needs no check of its own: each operand has exactly its field's
width (R71), and the encoding has no reserved-but-legal space (R77). -/

namespace Sys2Proof

/-- One row of the opcode map: its pattern, and the mask and match of its test. -/
structure OpcodeRow where
  pattern : String
  matchBits : Word
  mask : Word
  deriving DecidableEq, Repr

/-- The `0` family, and the families selected by the major opcode alone. -/
def opcodeRowsMajor : List OpcodeRow :=
  [⟨"00E0", 0x00E0, 0xFFFF⟩, ⟨"00EE", 0x00EE, 0xFFFF⟩, ⟨"00FE", 0x00FE, 0xFFFF⟩, ⟨"00FF", 0x00FF, 0xFFFF⟩,
   ⟨"00Cn", 0x00C0, 0xFFF0⟩, ⟨"1nnn", 0x1000, 0xF000⟩, ⟨"2nnn", 0x2000, 0xF000⟩, ⟨"3xnn", 0x3000, 0xF000⟩,
   ⟨"4xnn", 0x4000, 0xF000⟩, ⟨"5xy0", 0x5000, 0xF00F⟩, ⟨"9xy0", 0x9000, 0xF00F⟩, ⟨"6xnn", 0x6000, 0xF000⟩,
   ⟨"7xnn", 0x7000, 0xF000⟩]

/-- The `8` family, and `Annn` to `Dxys`. -/
def opcodeRowsAlu : List OpcodeRow :=
  [⟨"8xy0", 0x8000, 0xF00F⟩, ⟨"8xy1", 0x8001, 0xF00F⟩, ⟨"8xy2", 0x8002, 0xF00F⟩, ⟨"8xy3", 0x8003, 0xF00F⟩,
   ⟨"8xy4", 0x8004, 0xF00F⟩, ⟨"8xy5", 0x8005, 0xF00F⟩, ⟨"8xy6", 0x8006, 0xF00F⟩, ⟨"8xy7", 0x8007, 0xF00F⟩,
   ⟨"8xyE", 0x800E, 0xF00F⟩, ⟨"Annn", 0xA000, 0xF000⟩, ⟨"Bnnn", 0xB000, 0xF000⟩, ⟨"Cxnn", 0xC000, 0xF000⟩,
   ⟨"Dxys", 0xD000, 0xF000⟩]

/-- The `E` and `F` families. -/
def opcodeRowsMisc : List OpcodeRow :=
  [⟨"Ex9E", 0xE09E, 0xF0FF⟩, ⟨"ExA1", 0xE0A1, 0xF0FF⟩, ⟨"Fx07", 0xF007, 0xF0FF⟩, ⟨"Fx0A", 0xF00A, 0xF0FF⟩,
   ⟨"Fx15", 0xF015, 0xF0FF⟩, ⟨"Fx18", 0xF018, 0xF0FF⟩, ⟨"Fx1E", 0xF01E, 0xF0FF⟩, ⟨"Fx29", 0xF029, 0xF0FF⟩,
   ⟨"Fx33", 0xF033, 0xF0FF⟩, ⟨"Fx55", 0xF055, 0xF0FF⟩, ⟨"Fx65", 0xF065, 0xF0FF⟩]

/-- The opcode map (R74), rows in the source's order. -/
def opcodeTable : List OpcodeRow := opcodeRowsMajor ++ opcodeRowsAlu ++ opcodeRowsMisc

/-- The test of one row: `(w & mask) = match` (R74). -/
abbrev OpcodeRow.Matches (r : OpcodeRow) (w : Word) : Prop := w &&& r.mask = r.matchBits

/-- "A word is legal exactly when it matches one row of this table" (R74). -/
def legalWord (w : Word) : Bool := opcodeTable.any fun r => decide (r.Matches w)

/-- The pattern that the opcode map gives an instruction (R74). -/
def Instr.pattern : Instr → String
  | .cls => "00E0"
  | .ret => "00EE"
  | .low => "00FE"
  | .high => "00FF"
  | .scd _ => "00Cn"
  | .jp _ => "1nnn"
  | .call _ => "2nnn"
  | .seImm _ _ => "3xnn"
  | .sneImm _ _ => "4xnn"
  | .seReg _ _ => "5xy0"
  | .sneReg _ _ => "9xy0"
  | .ldImm _ _ => "6xnn"
  | .addImm _ _ => "7xnn"
  | .ldReg _ _ => "8xy0"
  | .orReg _ _ => "8xy1"
  | .andReg _ _ => "8xy2"
  | .xorReg _ _ => "8xy3"
  | .addReg _ _ => "8xy4"
  | .subReg _ _ => "8xy5"
  | .shr _ _ => "8xy6"
  | .subnReg _ _ => "8xy7"
  | .shl _ _ => "8xyE"
  | .ldI _ => "Annn"
  | .jpV0 _ => "Bnnn"
  | .rnd _ _ => "Cxnn"
  | .drw _ _ _ => "Dxys"
  | .skp _ => "Ex9E"
  | .sknp _ => "ExA1"
  | .ldFromDelay _ => "Fx07"
  | .waitKey _ => "Fx0A"
  | .setDelay _ => "Fx15"
  | .beep _ => "Fx18"
  | .addI _ => "Fx1E"
  | .ldGlyph _ => "Fx29"
  | .storeBcd _ => "Fx33"
  | .storeRegs _ => "Fx55"
  | .loadRegs _ => "Fx65"

/-- Why a word is no instruction: the five groups of illegal words of R76. Every one of them raises
`IllegalInstruction(UNRECOGNIZED_OPCODE)`. -/
inductive Rejected where
  /-- A `0nnn` word other than `00E0`, `00EE`, `00FE`, `00FF` and `00C0` to `00CF`. -/
  | zeroFamily
  /-- `5xyn` or `9xyn` with `n` not 0. -/
  | skipNibble
  /-- `8xyn` with `n` in 8, 9, A, B, C, D, F. -/
  | aluNibble
  /-- `Exnn` with `nn` neither 9E nor A1. -/
  | keyByte
  /-- `Fxnn` with `nn` not one of the nine sub-opcodes of the `F` family. -/
  | miscByte
  deriving DecidableEq, Repr

end Sys2Proof
end

