-- ==== Sys2Proof/Decode.lean ====
section
/-! DEFINITION. The decoder, total on every pair of bytes and rejecting by name, and the encoder (30_encoding.md R70 to
R76, 20_memory.md R52). -/

namespace Sys2Proof

/-! ### Fields (30_encoding.md R71) -/

/-- The instruction word of its two bytes: the opcode byte is the high half (20_memory.md R52). -/
def wordOfBytes (b0 b1 : Byte) : Word := b0 ++ b1

/-- The opcode byte `b0`, `w[15:8]`. -/
def opcodeByte (w : Word) : Byte := w.extractLsb' 8 8

/-- The argument byte `b1`, `w[7:0]`: also the field `nn`. -/
def fieldNN (w : Word) : Byte := w.extractLsb' 0 8

/-- The major opcode, `w[15:12]`. -/
def fieldOp (w : Word) : Nibble := w.extractLsb' 12 4

/-- The field `x`, `w[11:8]`. -/
def fieldX (w : Word) : Reg := w.extractLsb' 8 4

/-- The field `y`, `w[7:4]`. -/
def fieldY (w : Word) : Reg := w.extractLsb' 4 4

/-- The field `n` (`s` in `Dxys`), `w[3:0]`. -/
def fieldN (w : Word) : Nibble := w.extractLsb' 0 4

/-- The field `nnn`, `w[11:0]`. -/
def fieldNNN (w : Word) : Addr := w.extractLsb' 0 12

/-! ### The decoder (30_encoding.md R73, R74) -/

/-- The `0` family, selected by the whole word below the major opcode: the `x` nibble is 0 and the argument byte
decides (R73). -/
def decodeZero (w : Word) : Except Rejected Instr :=
  if fieldX w ≠ 0 then .error .zeroFamily
  else if fieldNN w = 0xE0 then .ok .cls
  else if fieldNN w = 0xEE then .ok .ret
  else if fieldNN w = 0xFE then .ok .low
  else if fieldNN w = 0xFF then .ok .high
  else if fieldY w = 0xC then .ok (.scd (fieldN w))
  else .error .zeroFamily

/-- The `8` family, selected by `n` (R73). -/
def decodeAlu (w : Word) : Except Rejected Instr :=
  if fieldN w = 0x0 then .ok (.ldReg (fieldX w) (fieldY w))
  else if fieldN w = 0x1 then .ok (.orReg (fieldX w) (fieldY w))
  else if fieldN w = 0x2 then .ok (.andReg (fieldX w) (fieldY w))
  else if fieldN w = 0x3 then .ok (.xorReg (fieldX w) (fieldY w))
  else if fieldN w = 0x4 then .ok (.addReg (fieldX w) (fieldY w))
  else if fieldN w = 0x5 then .ok (.subReg (fieldX w) (fieldY w))
  else if fieldN w = 0x6 then .ok (.shr (fieldX w) (fieldY w))
  else if fieldN w = 0x7 then .ok (.subnReg (fieldX w) (fieldY w))
  else if fieldN w = 0xE then .ok (.shl (fieldX w) (fieldY w))
  else .error .aluNibble

/-- The `E` family, selected by `nn` (R73). -/
def decodeKey (w : Word) : Except Rejected Instr :=
  if fieldNN w = 0x9E then .ok (.skp (fieldX w))
  else if fieldNN w = 0xA1 then .ok (.sknp (fieldX w))
  else .error .keyByte

/-- The `F` family, selected by `nn` (R73). -/
def decodeMisc (w : Word) : Except Rejected Instr :=
  if fieldNN w = 0x07 then .ok (.ldFromDelay (fieldX w))
  else if fieldNN w = 0x0A then .ok (.waitKey (fieldX w))
  else if fieldNN w = 0x15 then .ok (.setDelay (fieldX w))
  else if fieldNN w = 0x18 then .ok (.beep (fieldX w))
  else if fieldNN w = 0x1E then .ok (.addI (fieldX w))
  else if fieldNN w = 0x29 then .ok (.ldGlyph (fieldX w))
  else if fieldNN w = 0x33 then .ok (.storeBcd (fieldX w))
  else if fieldNN w = 0x55 then .ok (.storeRegs (fieldX w))
  else if fieldNN w = 0x65 then .ok (.loadRegs (fieldX w))
  else .error .miscByte

/-- `5xy0` and `9xy0`: legal only with `n = 0` (R76, 92_eei_decisions.md D6). -/
def decodeSkipReg (w : Word) (i : Instr) : Except Rejected Instr :=
  if fieldN w = 0x0 then .ok i else .error .skipNibble

/-- The decoder of one word: by the major opcode, then by the family's sub-field (R73). -/
def decodeWord (w : Word) : Except Rejected Instr :=
  match fieldOp w with
  | 0x0#4 => decodeZero w
  | 0x1#4 => .ok (.jp (fieldNNN w))
  | 0x2#4 => .ok (.call (fieldNNN w))
  | 0x3#4 => .ok (.seImm (fieldX w) (fieldNN w))
  | 0x4#4 => .ok (.sneImm (fieldX w) (fieldNN w))
  | 0x5#4 => decodeSkipReg w (.seReg (fieldX w) (fieldY w))
  | 0x6#4 => .ok (.ldImm (fieldX w) (fieldNN w))
  | 0x7#4 => .ok (.addImm (fieldX w) (fieldNN w))
  | 0x8#4 => decodeAlu w
  | 0x9#4 => decodeSkipReg w (.sneReg (fieldX w) (fieldY w))
  | 0xA#4 => .ok (.ldI (fieldNNN w))
  | 0xB#4 => .ok (.jpV0 (fieldNNN w))
  | 0xC#4 => .ok (.rnd (fieldX w) (fieldNN w))
  | 0xD#4 => .ok (.drw (fieldX w) (fieldY w) (fieldN w))
  | 0xE#4 => decodeKey w
  | _ => decodeMisc w

/-- The decoder of two bytes in memory order: the opcode byte, then the argument byte (20_memory.md R52). -/
def decode (b0 b1 : Byte) : Except Rejected Instr := decodeWord (wordOfBytes b0 b1)

/-! ### The encoder (30_encoding.md R71, R74) -/

/-- The word of an instruction, each field in the place R71 gives it. -/
def encode : Instr → Word
  | .cls => 0x00E0
  | .ret => 0x00EE
  | .low => 0x00FE
  | .high => 0x00FF
  | .scd n => 0x00C#12 ++ n
  | .jp nnn => 0x1#4 ++ nnn
  | .call nnn => 0x2#4 ++ nnn
  | .seImm x nn => 0x3#4 ++ x ++ nn
  | .sneImm x nn => 0x4#4 ++ x ++ nn
  | .seReg x y => 0x5#4 ++ x ++ y ++ 0x0#4
  | .sneReg x y => 0x9#4 ++ x ++ y ++ 0x0#4
  | .ldImm x nn => 0x6#4 ++ x ++ nn
  | .addImm x nn => 0x7#4 ++ x ++ nn
  | .ldReg x y => 0x8#4 ++ x ++ y ++ 0x0#4
  | .orReg x y => 0x8#4 ++ x ++ y ++ 0x1#4
  | .andReg x y => 0x8#4 ++ x ++ y ++ 0x2#4
  | .xorReg x y => 0x8#4 ++ x ++ y ++ 0x3#4
  | .addReg x y => 0x8#4 ++ x ++ y ++ 0x4#4
  | .subReg x y => 0x8#4 ++ x ++ y ++ 0x5#4
  | .shr x y => 0x8#4 ++ x ++ y ++ 0x6#4
  | .subnReg x y => 0x8#4 ++ x ++ y ++ 0x7#4
  | .shl x y => 0x8#4 ++ x ++ y ++ 0xE#4
  | .ldI nnn => 0xA#4 ++ nnn
  | .jpV0 nnn => 0xB#4 ++ nnn
  | .rnd x nn => 0xC#4 ++ x ++ nn
  | .drw x y n => 0xD#4 ++ x ++ y ++ n
  | .skp x => 0xE#4 ++ x ++ 0x9E#8
  | .sknp x => 0xE#4 ++ x ++ 0xA1#8
  | .ldFromDelay x => 0xF#4 ++ x ++ 0x07#8
  | .waitKey x => 0xF#4 ++ x ++ 0x0A#8
  | .setDelay x => 0xF#4 ++ x ++ 0x15#8
  | .beep x => 0xF#4 ++ x ++ 0x18#8
  | .addI x => 0xF#4 ++ x ++ 0x1E#8
  | .ldGlyph x => 0xF#4 ++ x ++ 0x29#8
  | .storeBcd x => 0xF#4 ++ x ++ 0x33#8
  | .storeRegs x => 0xF#4 ++ x ++ 0x55#8
  | .loadRegs x => 0xF#4 ++ x ++ 0x65#8

/-- The word that the opcode table's numbering gives for `nbits` bits `w` (bits at and above `nbits` are 0): the table
numbers the 16-bit word itself, with bit 0 its least significant (98_reader.md). -/
def tableWord (nbits w : Nat) : Word := BitVec.ofNat 16 (w % 2 ^ nbits)

/-- What the decoder reads from a word of the opcode table, laid out as its two bytes. -/
def decodeTableWord (nbits w : Nat) : Option Instr :=
  match decode (opcodeByte (tableWord nbits w)) (fieldNN (tableWord nbits w)) with
  | .ok i => some i
  | .error _ => none

end Sys2Proof
end

