-- ==== Sys2Proof/Config.lean ====
section
/-! DEFINITION. What the hardware fixes (00_scope.md R5) and the free values that the host supplies to a step
(10_state.md R38, R47, R49). A free value is an opaque constant: nothing in Lean knows more of it than its type. -/

namespace Sys2Proof.Config

/-- `MEM_SIZE`: 4096 bytes (R5). -/
abbrev memSize : Nat := 4096

/-- `PROGRAM_BASE` and `RESET_PC`: 0x200 (R5). -/
abbrev programBase : Nat := 0x200

/-- `FONT_BASE`: 0x000 (R5, 90_conflicts.md C2). -/
abbrev fontBase : Nat := 0x000

/-- `FONT_GLYPHS` is 16 glyphs of 5 bytes (R5, 90_conflicts.md C1). -/
abbrev fontSize : Nat := 80

/-- The longest program that fits, 0x1000 - 0x200 bytes (70_reset_and_hazards.md R222). -/
abbrev maxProgram : Nat := 3584

/-- `STACK_DEPTH` (R5). -/
abbrev stackDepth : Nat := 16

/-- `TICK_HZ` (R5). -/
abbrev tickHz : Rat := 60

/-- Rows of the display backing grid (R5). -/
abbrev backingH : Nat := 64

/-- Columns of the display backing grid (R5). -/
abbrev backingW : Nat := 128

/-- OPEN PARAMETER `CLOCK_RESOLUTION` (R5; 93_implementation_defined.md I7): the granularity of the wall-clock input, in
seconds; `none`, or a value that is not positive, is the unrestricted default. It has no value in the model, so what is
proved holds for every granularity (log 1). -/
opaque clockResolution : Option Rat

/-- FREE VALUE (log 1): what the host's clock shows at the n-th sample, in seconds. `Env.draw` turns these into
samples at `clockResolution` that never decrease, which is the host's duty (92_eei_decisions.md D13). -/
opaque wallClock : Nat → Rat

/-- FREE VALUE (log 2): the random byte supplied with the n-th sample (92_eei_decisions.md D12). -/
opaque randomByte : Nat → Byte

/-- FREE VALUE (log 3): the key-test answers supplied with the n-th sample. Bit `k` of entry `j` is the answer to the
step's `j`-th query, should that query ask about key number `k`; no law ties two of them (10_state.md R47). -/
opaque keyAnswers : Nat → Vector (BitVec 256) 16

end Sys2Proof.Config
end

