-- ==== Sys2Proof/Machine/State.lean ====
section
/-! DEFINITION. The state of the block (10_state.md), the reasons a step stops, and the state at power-on
(70_reset_and_hazards.md R220, R221). -/

namespace Sys2Proof.Machine

/-- The step-status output (10_state.md R35). -/
inductive Status where
  /-- The instruction completed. -/
  | ok
  /-- `Fx0A` found no key pressed. -/
  | waiting
  /-- The core is halted. -/
  | fault
  deriving DecidableEq, Repr

/-- The cause of a fault (60_exceptions.md R200). -/
inductive FaultCause where
  /-- Code 0: `halted = 0`. -/
  | none
  /-- Code 1: no row of the opcode table matches. -/
  | unrecognizedOpcode
  /-- Code 2: a call with 16 entries in use. -/
  | stackOverflow
  /-- Code 3: a return with none in use. -/
  | stackUnderflow
  deriving DecidableEq, Repr

/-- A call of a port of the host within a step (10_state.md R47, R48; 44_timer_io.md R186). -/
inductive PortCall where
  /-- `KeyTest(k)` and the host's answer. -/
  | keyTest (k : Byte) (answer : Bool)
  /-- One pulse on the beep port. -/
  | beep
  deriving DecidableEq, Repr

/-- The host's side of a step, the MODEL'S OWN state (logs 1 to 4): the inputs of the current step, drawn when it
begins, and the port calls it has made. -/
structure Env where
  /-- How many samples of the inputs have been taken: the index of the next one. -/
  draws : Nat
  /-- `now`, the wall-clock sample of the step, in seconds (10_state.md R49). -/
  now : Rat
  /-- `rand8`, the random byte of the step (10_state.md R49). -/
  rand8 : Byte
  /-- The host's answers: bit `k` of entry `j` answers the step's `j`-th query should it ask about key `k`
  (10_state.md R47). -/
  keys : Vector (BitVec 256) 16
  /-- The port calls the step has made, first one first (44_timer_io.md R186). -/
  calls : List PortCall
  /-- A STEP has been issued since the last RESET: a run is in progress (70_reset_and_hazards.md R223). -/
  inRun : Bool
  deriving DecidableEq, Repr

/-- Memory: the (address, byte) pairs whose byte differs from what an unlisted address reads as, addresses strictly
rising (20_memory.md R50). -/
abbrev Memory := List Host.Cell

/-- The display backing store, 64 rows of 128 cells; cell `c` of a row is its bit `c`, 1 for foreground
(10_state.md R32). -/
abbrev Display := Vector (BitVec 128) 64

/-- Everything the spec gives the block (10_state.md R36), and the host's side of a step. -/
structure State where
  /-- V0 to VF (R20). -/
  v : Vector Byte 16
  /-- The index register; bits 15:12 of its 16 read 0 (R23). -/
  i : Addr
  /-- The program counter (R24). -/
  pc : Addr
  /-- The call stack's entries (R27). -/
  stack : Vector Word 16
  /-- The stack pointer: how many entries are in use, 0 to 16 (R28). -/
  sp : Fin 17
  /-- The delay timer's stored value (R29). -/
  dval : Byte
  /-- The wall-clock time at which the delay timer was set (R29). -/
  dstamp : Rat
  /-- The display cells (R32). -/
  cells : Display
  /-- Extended mode (R33). -/
  ext : Bool
  /-- The fault latch (R34): the core is halted. -/
  halted : Bool
  /-- The fault latch: the fetch address of the failing instruction. -/
  faultPc : Addr
  /-- The fault latch: the two fetched bytes, `b0 ++ b1`. -/
  faultBytes : Word
  /-- The fault latch: the cause. -/
  faultCause : FaultCause
  /-- The step-status output (R35). -/
  status : Status
  /-- Memory (20_memory.md R50). -/
  mem : Memory
  /-- The host's side of a step. -/
  env : Env
  deriving DecidableEq, Repr

/-- Why the machine stops. -/
inductive Fault where
  /-- Raised by `step` alone, when a STEP is issued while the core is halted: it fetches nothing, changes no state and
  reports FAULT with the fault record (60_exceptions.md R202). SAFE: a halted state is never a normal end (log 6). -/
  | illegalInstruction (cause : FaultCause) (pc : Addr) (bytes : Word)
  deriving DecidableEq, Repr

/-- What the model gives no meaning. -/
inductive Refusal where
  /-- Raised by an arm of `exec` whose instruction has no meaning yet; no arm does so now. SAFE. -/
  | notModelled (mnemonic : String)
  /-- Raised by `State.load` for a program of more than 3584 bytes, which the source calls undefined
  (70_reset_and_hazards.md R222). SAFE. -/
  | oversizeProgram
  /-- Raised by `State.load` while a run is in progress (70_reset_and_hazards.md R223). SAFE. -/
  | loadDuringRun
  deriving DecidableEq, Repr

/-- The host's side before anything has happened (log 4). -/
def Env.initial : Env :=
  { draws := 0, now := 0, rand8 := 0, keys := Vector.replicate 16 0, calls := [], inRun := false }

/-- The power-on state: the reset values of 10_state.md R36 over a zero memory (70_reset_and_hazards.md R220, R221). -/
def State.reset : State :=
  { v := Vector.replicate 16 0
    i := 0
    pc := 0x200
    stack := Vector.replicate 16 0
    sp := 0
    dval := 0
    dstamp := 0
    cells := Vector.replicate 64 0
    ext := false
    halted := false
    faultPc := 0
    faultBytes := 0
    faultCause := .none
    status := .ok
    mem := []
    env := Env.initial }

end Sys2Proof.Machine
end

