-- ==== Sys2Proof/Machine/Ops.lean ====
section
/-! DEFINITION. The named operations over memory, registers, the stack, the host's ports and the fault latch. -/

namespace Sys2Proof.Machine

/-! ### Memory (20_memory.md R50, R51, R53) -/

/-- What an address not listed reads as: power-on memory is all zero (70_reset_and_hazards.md R221; log 8). -/
abbrev Memory.unlisted : Byte := 0

/-- The byte at an address. -/
def Memory.read : Memory → Nat → Byte
  | [], _ => Memory.unlisted
  | (k, u) :: rest, a => if a = k then u else Memory.read rest a

/-- The memory after one byte is written, in canonical form when the old one was. -/
def Memory.write : Memory → Nat → Byte → Memory
  | [], a, b => if b = Memory.unlisted then [] else [(a, b)]
  | (k, u) :: rest, a, b =>
    if a < k then (if b = Memory.unlisted then (k, u) :: rest else (a, b) :: (k, u) :: rest)
    else if a = k then (if b = Memory.unlisted then rest else (a, b) :: rest)
    else (k, u) :: Memory.write rest a b

/-- The canonical form: addresses strictly rising, all of them in the address space, and no byte that an unlisted
address would read as. -/
abbrev Memory.wf (m : Memory) : Prop :=
  m.Pairwise (fun c d => c.1 < d.1) ∧ ∀ c ∈ m, c.1 < Config.memSize ∧ c.2 ≠ Memory.unlisted

/-- The memory after bytes are written at rising addresses from `a` (10_state.md R46). -/
def Memory.writeBytes : Memory → Nat → List Byte → Memory
  | m, _, [] => m
  | m, a, b :: bs => Memory.writeBytes (Memory.write m a b) (a + 1) bs

/-- `MemRead(a, 1)`: the address is 12 bits, so its arithmetic is mod 4096 (00_scope.md R8, 20_memory.md R51). -/
def State.readByte (s : State) (a : Addr) : Byte := Memory.read s.mem a.toNat

/-- `MemWrite(a, 1, b)` (00_scope.md R8). -/
def State.writeByte (s : State) (a : Addr) (b : Byte) : State := { s with mem := Memory.write s.mem a.toNat b }

/-! ### Registers (00_scope.md R7) -/

/-- `V[x]`. -/
def State.reg (s : State) (x : Reg) : Byte := s.v[x.toNat]'x.isLt

/-- `V[x] <- b`. -/
def State.setReg (s : State) (x : Reg) (b : Byte) : State := { s with v := s.v.set x.toNat b x.isLt }

/-- A result to `V[x]` and then its flag to VF: the flag is written last (10_state.md R21, 92_eei_decisions.md D5). -/
def State.setRegFlag (s : State) (x : Reg) (rf : Byte × Byte) : State := (s.setReg x rf.1).setReg regVF rf.2

/-- `I <- a`. -/
def State.setI (s : State) (a : Addr) : State := { s with i := a }

/-- `pc <- a` (10_state.md R25). -/
def State.setPc (s : State) (a : Addr) : State := { s with pc := a }

/-- `fpc`, the fetch address: an instruction's rule runs with `pc = fpc + 2` (00_scope.md R11; log 7). -/
def State.fpc (s : State) : Addr := s.pc - 2

/-- A skip adds a further 2 to the pc when its condition holds (40_control_flow.md R108). -/
def State.skipIf (s : State) (c : Bool) : State := s.setPc (if c then s.pc + 2 else s.pc)

/-! ### The call stack (10_state.md R28) -/

/-- Push: write `S[sp]`, then `sp + 1`; nothing to give when 16 entries are in use. -/
def State.push (s : State) (a : Addr) : Option State :=
  if h : s.sp.val < 16 then
    some { s with stack := s.stack.set s.sp.val (a.setWidth 16) h, sp := ⟨s.sp.val + 1, by omega⟩ }
  else none

/-- Pop: `sp - 1`, then read `S[sp]`, which stays; nothing to give when no entry is in use. -/
def State.pop (s : State) : Option (Word × State) :=
  if h : s.sp.val = 0 then none
  else some (s.stack[s.sp.val - 1]'(by omega), { s with sp := ⟨s.sp.val - 1, by omega⟩ })

/-! ### The fault (60_exceptions.md R200, R201) -/

/-- The numeric code of a cause (60_exceptions.md R200). -/
def FaultCause.code : FaultCause → Nat
  | .none => 0
  | .unrecognizedOpcode => 1
  | .stackOverflow => 2
  | .stackUnderflow => 3

/-- `raise IllegalInstruction(cause)`: the latch is set with the fetch address, the fetched bytes and the cause, the
status becomes FAULT, and nothing else changes; the pc stays at `fpc + 2` (60_exceptions.md R201). -/
def State.raise (s : State) (cause : FaultCause) (bytes : Word) : State :=
  { s with halted := true, faultPc := s.fpc, faultBytes := bytes, faultCause := cause, status := .fault }

/-! ### The host's ports and inputs (10_state.md R47 to R49) -/

/-- What a clock of granularity `resolution` shows at a time: the last multiple of it, or the time itself where the
granularity is unrestricted (`CLOCK_RESOLUTION`, 00_scope.md R5; 92_eei_decisions.md D13; log 1). -/
def atResolution (resolution : Option Rat) (t : Rat) : Rat :=
  match resolution with
  | none => t
  | some r => if 0 < r then r * (Rat.floor (t / r) : Rat) else t

/-- The next wall-clock sample on a clock of granularity `resolution`: never earlier than the last one
(92_eei_decisions.md D13; log 1). -/
def Env.nextNow (resolution : Option Rat) (e : Env) : Rat := max e.now (atResolution resolution (Config.wallClock e.draws))

/-- The inputs of a new step: one wall-clock sample, one random byte, fresh key answers, no port call made yet
(30_encoding.md R75). -/
def Env.draw (e : Env) : Env :=
  { draws := e.draws + 1
    now := e.nextNow Config.clockResolution
    rand8 := Config.randomByte e.draws
    keys := Config.keyAnswers e.draws
    calls := []
    inRun := true }

/-- The host's answer, should the step's query number `j` ask about key `k`. -/
def State.keyAnswer (s : State) (j : Nibble) (k : Byte) : Bool := (s.env.keys[j.toNat]'j.isLt).getLsbD k.toNat

/-- One port call more. -/
def State.logCall (s : State) (c : PortCall) : State := { s with env := { s.env with calls := s.env.calls ++ [c] } }

/-- The state after the step's query number `j`, `KeyTest(k)`, has been made. -/
def State.askKey (s : State) (j : Nibble) (k : Byte) : State := s.logCall (.keyTest k (s.keyAnswer j k))

/-- The 16 keys in the order `Fx0A` polls them (44_timer_io.md R185). -/
def allKeys : List Nibble := [0, 1, 2, 3, 4, 5, 6, 7, 8, 9, 10, 11, 12, 13, 14, 15]

/-- Poll keys in order and stop at the first one pressed; query number `k` asks about key `k` (44_timer_io.md R186). -/
def State.pollKeys : List Nibble → State → Option Nibble × State
  | [], s => (none, s)
  | k :: ks, s =>
    if s.keyAnswer k (k.setWidth 8) then (some k, s.askKey k (k.setWidth 8))
    else State.pollKeys ks (s.askKey k (k.setWidth 8))

/-- `Beep()`: one pulse on the beep port, nothing stored (10_state.md R48). -/
def State.sendBeep (s : State) : State := s.logCall .beep

/-! ### The step cycle (30_encoding.md R75) -/

/-- The opcode byte and the argument byte at the pc; at 0xFFF the second is `mem[0x000]` (20_memory.md R54). -/
def State.fetch (s : State) : Byte × Byte := (s.readByte s.pc, s.readByte (s.pc + 1))

/-- The state an instruction's rule starts from: the step's inputs are drawn, the pc is past the instruction, the
status is OK. -/
def State.begin (s : State) : State := { s with pc := s.pc + 2, status := .ok, env := s.env.draw }

/-- What a word that is no instruction does (30_encoding.md R76). -/
def State.raiseIllegal (s : State) (b0 b1 : Byte) : State := s.raise .unrecognizedOpcode (wordOfBytes b0 b1)

/-- A word of the opcode table placed where the next step fetches: its two bytes at the pc and the pc plus 1. The
latch's `halted` is cleared, since a halted core fetches nothing (log 11). -/
def State.placeWord (s : State) (w : Word) : State :=
  { (s.writeByte s.pc (opcodeByte w)).writeByte (s.pc + 1) (fieldNN w) with halted := false }

end Sys2Proof.Machine
end

