-- ==== Sys2Proof/Machine/Operands.lean ====
section
/-! DEFINITION. Operand forms: effective addresses (42_index_memory.md R146), the digits of a BCD store, the delay
timer's effective value, and the cells of a sprite (43_display.md R160, R165). -/

namespace Sys2Proof.Machine

/-! ### Addresses (42_index_memory.md R146) -/

/-- Index-relative: `I + k` mod 4096. -/
def State.indexAddr (s : State) (k : Nat) : Addr := s.i + BitVec.ofNat 12 k

/-- Indexed by V0: `(nnn + V[0]) mod 4096` (40_control_flow.md R107). -/
def State.v0Addr (s : State) (nnn : Addr) : Addr := nnn + (s.reg 0).setWidth 12

/-- `(I + V[x]) mod 4096` (42_index_memory.md R141). -/
def State.indexPlusReg (s : State) (x : Reg) : Addr := s.i + (s.reg x).setWidth 12

/-- The font glyph of a byte: `b * 5`, from the whole byte (42_index_memory.md R142). -/
def glyphAddr (b : Byte) : Addr := BitVec.ofNat 12 (b.toNat * 5)

/-- `(I + x + 1) mod 4096`, past the last byte of a block (42_index_memory.md R144). -/
def State.indexPast (s : State) (x : Reg) : Addr := s.indexAddr (x.toNat + 1)

/-! ### BCD (42_index_memory.md R143) -/

/-- `v div 100`. -/
def bcdHundreds (b : Byte) : Byte := BitVec.ofNat 8 (b.toNat / 100)

/-- `(v div 10) mod 10`. -/
def bcdTens (b : Byte) : Byte := BitVec.ofNat 8 (b.toNat / 10 % 10)

/-- `v mod 10`. -/
def bcdOnes (b : Byte) : Byte := BitVec.ofNat 8 (b.toNat % 10)

/-! ### The delay timer (10_state.md R30) -/

/-- Whole ticks from `dstamp` to `now`: `floor((now - dstamp) * TICK_HZ)`. -/
def elapsedTicks (now dstamp : Rat) : Int := Rat.floor ((now - dstamp) * Config.tickHz)

/-- `DelayNow(now) = max(0, dval - floor((now - dstamp) * TICK_HZ))`. -/
def State.delayNow (s : State) (now : Rat) : Int := max 0 ((s.dval.toNat : Int) - elapsedTicks now s.dstamp)

/-! ### The sprite (43_display.md R160, R165) -/

/-- The active mode's logical width. -/
def modeWidth (ext : Bool) : Nat := if ext then 128 else 64

/-- The active mode's logical height. -/
def modeHeight (ext : Bool) : Nat := if ext then 64 else 32

/-- The (row, column) cells of logical pixel `(lx, ly)`: one cell in extended mode, a 2x2 block in normal mode
(R160, 92_eei_decisions.md D26). -/
def pixelCells (ext : Bool) (lx ly : Nat) : List (Nat × Nat) :=
  if ext then [(ly, lx)]
  else [(2 * ly, 2 * lx), (2 * ly, 2 * lx + 1), (2 * ly + 1, 2 * lx), (2 * ly + 1, 2 * lx + 1)]

/-- The cells one sprite bit toggles: bit number `bit` from the left, at column `cx + bit` and row `ly`. -/
def spriteBitCells (ext : Bool) (cx ly : Nat) (b : Byte) (bit : Nat) : List (Nat × Nat) :=
  if b.getLsbD (7 - bit) then pixelCells ext ((cx + bit) % modeWidth ext) ly else []

/-- The cells one sprite byte toggles, most-significant bit first (R165). -/
def spriteRowCells (ext : Bool) (cx ly : Nat) (b : Byte) : List (Nat × Nat) :=
  (List.range 8).flatMap (spriteBitCells ext cx ly b)

/-- The cells a sprite of `n` rows at `(cx, cy)` toggles, in the order it does; row `row` is the byte at `I + row`. -/
def State.spriteCells (s : State) (cx cy : Byte) (n : Nat) : List (Nat × Nat) :=
  (List.range n).flatMap fun row =>
    spriteRowCells s.ext cx.toNat ((cy.toNat + row) % modeHeight s.ext) (s.readByte (s.indexAddr row))

end Sys2Proof.Machine
end

