-- ==== Sys2Proof/Machine/Flags.lean ====
section
/-! DEFINITION. The results that carry a flag: each function gives the byte and the flag, computed on unbounded
integers from the original operands (41_alu.md R126). -/

namespace Sys2Proof.Machine

/-- A flag as VF holds it. -/
def flagByte (f : Bool) : Byte := if f then 1 else 0

/-- Addition: the sum mod 256, and 1 exactly when the sum is 256 or more (41_alu.md R127). -/
def addCarry (a b : Byte) : Byte × Byte :=
  (BitVec.ofNat 8 (a.toNat + b.toNat), flagByte (decide (256 ≤ a.toNat + b.toNat)))

/-- Subtraction `a - b`: the difference mod 256, and 1 exactly when it is below 0, the source's own polarity
(41_alu.md R128; 93_implementation_defined.md I9). -/
def subBorrow (a b : Byte) : Byte × Byte :=
  (BitVec.ofInt 8 ((a.toNat : Int) - (b.toNat : Int)), flagByte (decide ((a.toNat : Int) - (b.toNat : Int) < 0)))

/-- Shift right: bit 7 becomes 0, and the flag is the original bit 0 (41_alu.md R129). -/
def shiftRight (a : Byte) : Byte × Byte := (a >>> 1, flagByte (a.getLsbD 0))

/-- Shift left, mod 256: the flag is the original bit 7 (41_alu.md R131). -/
def shiftLeft (a : Byte) : Byte × Byte := (a <<< 1, flagByte (a.getLsbD 7))

end Sys2Proof.Machine
end

