-- ==== Sys2Proof/Machine/ControlFlow.lean ====
section
/-! DEFINITION. Control flow (40_control_flow.md). Each meaning runs with the pc already at `fpc + 2`. -/

namespace Sys2Proof.Machine

/-- The outcome of an instruction of this machine. -/
abbrev Result := Host.Outcome State Fault Refusal

/-- `00EE` (R100). -/
def execRet (s : State) : Result :=
  match s.pop with
  | none => .next (s.raise .stackUnderflow (encode .ret))
  | some (a, s') => .next (s'.setPc (a.setWidth 12))

/-- `1nnn` (R101). -/
def execJp (nnn : Addr) (s : State) : Result := .next (s.setPc nnn)

/-- `2nnn` (R102): the value pushed is the address after the call. -/
def execCall (nnn : Addr) (s : State) : Result :=
  match s.push s.pc with
  | none => .next (s.raise .stackOverflow (encode (.call nnn)))
  | some s' => .next (s'.setPc nnn)

/-- `3xnn` (R103). -/
def execSeImm (x : Reg) (nn : Byte) (s : State) : Result := .next (s.skipIf (s.reg x == nn))

/-- `4xnn` (R104). -/
def execSneImm (x : Reg) (nn : Byte) (s : State) : Result := .next (s.skipIf (s.reg x != nn))

/-- `5xy0` (R105). -/
def execSeReg (x y : Reg) (s : State) : Result := .next (s.skipIf (s.reg x == s.reg y))

/-- `9xy0` (R106). -/
def execSneReg (x y : Reg) (s : State) : Result := .next (s.skipIf (s.reg x != s.reg y))

/-- `Bnnn` (R107). -/
def execJpV0 (nnn : Addr) (s : State) : Result := .next (s.setPc (s.v0Addr nnn))

end Sys2Proof.Machine
end

