-- ==== Sys2Proof/Machine/Alu.lean ====
section
/-! DEFINITION. Register and arithmetic instructions (41_alu.md). -/

namespace Sys2Proof.Machine

/-- `6xnn` (R120). -/
def execLdImm (x : Reg) (nn : Byte) (s : State) : Result := .next (s.setReg x nn)

/-- `7xnn` (R121): no flag. -/
def execAddImm (x : Reg) (nn : Byte) (s : State) : Result := .next (s.setReg x (addCarry (s.reg x) nn).1)

/-- `8xy0` (R122). -/
def execLdReg (x y : Reg) (s : State) : Result := .next (s.setReg x (s.reg y))

/-- `8xy1` (R123): VF is not reset. -/
def execOrReg (x y : Reg) (s : State) : Result := .next (s.setReg x (s.reg x ||| s.reg y))

/-- `8xy2` (R124). -/
def execAndReg (x y : Reg) (s : State) : Result := .next (s.setReg x (s.reg x &&& s.reg y))

/-- `8xy3` (R125). -/
def execXorReg (x y : Reg) (s : State) : Result := .next (s.setReg x (s.reg x ^^^ s.reg y))

/-- `8xy4` (R127). -/
def execAddReg (x y : Reg) (s : State) : Result := .next (s.setRegFlag x (addCarry (s.reg x) (s.reg y)))

/-- `8xy5` (R128). -/
def execSubReg (x y : Reg) (s : State) : Result := .next (s.setRegFlag x (subBorrow (s.reg x) (s.reg y)))

/-- `8xy6` (R129): the field `y` is not read. -/
def execShr (x _y : Reg) (s : State) : Result := .next (s.setRegFlag x (shiftRight (s.reg x)))

/-- `8xy7` (R130). -/
def execSubnReg (x y : Reg) (s : State) : Result := .next (s.setRegFlag x (subBorrow (s.reg y) (s.reg x)))

/-- `8xyE` (R131): the field `y` is not read. -/
def execShl (x _y : Reg) (s : State) : Result := .next (s.setRegFlag x (shiftLeft (s.reg x)))

/-- `Cxnn` (R132): the step's random byte, masked. -/
def execRnd (x : Reg) (nn : Byte) (s : State) : Result := .next (s.setReg x (s.env.rand8 &&& nn))

end Sys2Proof.Machine
end

