-- ==== Sys2Proof/Machine/IndexMemory.lean ====
section
/-! DEFINITION. Index register and memory instructions (42_index_memory.md). -/

namespace Sys2Proof.Machine

/-- `Annn` (R140). -/
def execLdI (nnn : Addr) (s : State) : Result := .next (s.setI nnn)

/-- `Fx1E` (R141): no flag. -/
def execAddI (x : Reg) (s : State) : Result := .next (s.setI (s.indexPlusReg x))

/-- `Fx29` (R142). -/
def execLdGlyph (x : Reg) (s : State) : Result := .next (s.setI (glyphAddr (s.reg x)))

/-- `Fx33` (R143): three bytes, hundreds first; `I` is unchanged. -/
def execStoreBcd (x : Reg) (s : State) : Result :=
  .next (((s.writeByte (s.indexAddr 0) (bcdHundreds (s.reg x))).writeByte (s.indexAddr 1)
    (bcdTens (s.reg x))).writeByte (s.indexAddr 2) (bcdOnes (s.reg x)))

/-- The first `n` registers stored at `I`, `I + 1` and so on, in increasing order (R144). -/
def State.storeBlock : Nat → State → State
  | 0, s => s
  | n + 1, s => (State.storeBlock n s).writeByte (s.indexAddr n) (s.reg (BitVec.ofNat 4 n))

/-- The first `n` registers loaded from `I`, `I + 1` and so on, in increasing order (R145). -/
def State.loadBlock : Nat → State → State
  | 0, s => s
  | n + 1, s => (State.loadBlock n s).setReg (BitVec.ofNat 4 n) (s.readByte (s.indexAddr n))

/-- `Fx55` (R144): registers 0 to `x` inclusive, then `I` moves past the last byte. -/
def execStoreRegs (x : Reg) (s : State) : Result := .next ((State.storeBlock (x.toNat + 1) s).setI (s.indexPast x))

/-- `Fx65` (R145): registers 0 to `x` inclusive, then `I` moves past the last byte. -/
def execLoadRegs (x : Reg) (s : State) : Result := .next ((State.loadBlock (x.toNat + 1) s).setI (s.indexPast x))

end Sys2Proof.Machine
end

