-- ==== Sys2Proof/Machine/DisplayOps.lean ====
section
/-! DEFINITION. The compositor (43_display.md R166, R167) and the display instructions (43_display.md). -/

namespace Sys2Proof.Machine

/-- `cell[r][c]`; a place outside the grid reads as background (no rule forms one). -/
def Display.cell (d : Display) (r c : Nat) : Bool := (d[r]?.getD 0).getLsbD c

/-- The cells after `Toggle(r, c)`: that one cell flips (43_display.md R166). -/
def Display.toggle (d : Display) (rc : Nat × Nat) : Display :=
  d.setIfInBounds rc.1 ((d[rc.1]?.getD 0) ^^^ BitVec.twoPow 128 rc.2)

/-- `Toggle` applied to cells in order, with the collision so far: it is raised by a cell that was foreground
(43_display.md R166). -/
def Display.composite : List (Nat × Nat) → Display → Bool → Display × Bool
  | [], d, coll => (d, coll)
  | rc :: rest, d, coll => Display.composite rest (Display.toggle d rc) (coll || Display.cell d rc.1 rc.2)

/-- The cells moved down by `k` rows, background above, rows past row 63 lost (43_display.md R164). -/
def Display.scrollDown (d : Display) (k : Nat) : Display :=
  Vector.ofFn fun r : Fin 64 => if k ≤ r.val then d[r.val - k]?.getD 0 else 0

/-- The cell rows of a scroll by `n`: one logical row is 2 cell rows in normal mode (43_display.md R164,
92_eei_decisions.md D27). -/
def scrollRows (ext : Bool) (n : Nibble) : Nat := if ext then n.toNat else 2 * n.toNat

/-- `00E0` (R161): every cell to background, in either mode. -/
def execCls (s : State) : Result := .next { s with cells := Vector.replicate 64 0 }

/-- `00FE` (R162): the cells are unchanged. -/
def execLow (s : State) : Result := .next { s with ext := false }

/-- `00FF` (R163): the cells are unchanged. -/
def execHigh (s : State) : Result := .next { s with ext := true }

/-- `00Cn` (R164). -/
def execScd (n : Nibble) (s : State) : Result :=
  .next { s with cells := Display.scrollDown s.cells (scrollRows s.ext n) }

/-- The cells and the collision of a sprite drawn at the coordinates in `V[x]` and `V[y]` (R165). -/
def State.drawSprite (s : State) (x y : Reg) (n : Nibble) : Display × Bool :=
  Display.composite (s.spriteCells (s.reg x) (s.reg y) n.toNat) s.cells false

/-- `Dxys` (R165): VF is the collision, written after all rows; `I` is unchanged. -/
def execDrw (x y : Reg) (n : Nibble) (s : State) : Result :=
  .next ({ s with cells := (s.drawSprite x y n).1 }.setReg regVF (flagByte (s.drawSprite x y n).2))

end Sys2Proof.Machine
end

