-- ==== Sys2Proof/Machine/TimerIo.lean ====
section
/-! DEFINITION. Timer, sound and key instructions (44_timer_io.md). -/

namespace Sys2Proof.Machine

/-- `Fx07` (R180): a pure read of the timer. -/
def execLdFromDelay (x : Reg) (s : State) : Result :=
  .next (s.setReg x (BitVec.ofInt 8 (s.delayNow s.env.now)))

/-- `Fx15` (R181): the value, and the step's wall-clock sample. -/
def execSetDelay (x : Reg) (s : State) : Result := .next { s with dval := s.reg x, dstamp := s.env.now }

/-- `Fx18` (R182): one pulse, whatever `V[x]` holds. -/
def execBeep (_x : Reg) (s : State) : Result := .next s.sendBeep

/-- `Ex9E` (R183): one query, about the whole byte of `V[x]`. -/
def execSkp (x : Reg) (s : State) : Result :=
  .next ((s.askKey 0 (s.reg x)).skipIf (s.keyAnswer 0 (s.reg x)))

/-- `ExA1` (R184). -/
def execSknp (x : Reg) (s : State) : Result :=
  .next ((s.askKey 0 (s.reg x)).skipIf (!s.keyAnswer 0 (s.reg x)))

/-- What `Fx0A` makes of its poll: the key found, or the pc back at `fpc` and the status WAITING (R185). -/
def State.afterPoll (x : Reg) : Option Nibble × State → State
  | (some k, s) => s.setReg x (k.setWidth 8)
  | (none, s) => { s.setPc s.fpc with status := .waiting }

/-- `Fx0A` (R185). -/
def execWaitKey (x : Reg) (s : State) : Result := .next (State.afterPoll x (State.pollKeys allKeys s))

end Sys2Proof.Machine
end

