-- ==== Sys2Proof/Machine/Launch.lean ====
section
/-! DEFINITION. What the host does outside a STEP: RESET, LOAD and reading the outputs (10_state.md R43, R45, R46;
70_reset_and_hazards.md R220 to R223, R228). -/

namespace Sys2Proof.Machine

/-- The RESET command (70_reset_and_hazards.md R220): the reset value of every element but memory, `dstamp` the
wall-clock sample that RESET takes (10_state.md R49); no run is in progress after it (R223). -/
def State.resetCommand (s : State) : State :=
  { State.reset with mem := s.mem, dstamp := s.env.draw.now, env := { s.env.draw with inRun := false } }

/-- `FONT_GLYPHS` as the source declares it: 16 glyphs of 5 scan rows, each row the nibble that holds its pixels
(20_memory.md R56; 00_scope.md R5). -/
abbrev Font := Vector (Vector Nibble 5) 16

/-- The byte stored for a declared scan row: the nibble in the high half, the low half 0 (20_memory.md R56). -/
def glyphByte (row : Nibble) : Byte := row ++ 0x0#4

/-- The 80 bytes of the font table: glyph `d` is the five bytes from `5 * d`, top row first (20_memory.md R56). -/
def Font.bytes (font : Font) : Vector Byte 80 :=
  Vector.ofFn fun k : Fin 80 =>
    glyphByte ((font[k.val / 5]'(by omega))[k.val % 5]'(Nat.mod_lt _ (by decide)))

/-- The launch image over a memory: the font at `FONT_BASE`, the program at 0x200 (70_reset_and_hazards.md R222). -/
def Memory.image (m : Memory) (font : Font) (program : List Byte) : Memory :=
  Memory.writeBytes (Memory.writeBytes m Config.fontBase (Font.bytes font).toList) Config.programBase program

/-- The LOAD port: writes the launch image and changes no register; refused for a program that does not fit and while a
run is in progress (70_reset_and_hazards.md R222, R223). -/
def State.load (s : State) (font : Font) (program : List Byte) : Host.Outcome State Fault Refusal :=
  if s.env.inRun then .refused .loadDuringRun
  else if Config.maxProgram < program.length then .refused .oversizeProgram
  else .next { s with mem := Memory.image s.mem font program }

/-- The default `FONT_GLYPHS`, glyphs 0 to 7 (20_memory.md R57). PRESUMED: the spec takes these bytes from general
knowledge (log 9). -/
def defaultGlyphsLow : Vector (Vector Nibble 5) 8 :=
  #v[#v[0xF, 0x9, 0x9, 0x9, 0xF], #v[0x2, 0x6, 0x2, 0x2, 0x7], #v[0xF, 0x1, 0xF, 0x8, 0xF], #v[0xF, 0x1, 0xF, 0x1, 0xF],
    #v[0x9, 0x9, 0xF, 0x1, 0x1], #v[0xF, 0x8, 0xF, 0x1, 0xF], #v[0xF, 0x8, 0xF, 0x9, 0xF], #v[0xF, 0x1, 0x2, 0x4, 0x4]]

/-- The default `FONT_GLYPHS`, glyphs 8 to F (20_memory.md R57). PRESUMED (log 9). -/
def defaultGlyphsHigh : Vector (Vector Nibble 5) 8 :=
  #v[#v[0xF, 0x9, 0xF, 0x9, 0xF], #v[0xF, 0x9, 0xF, 0x1, 0xF], #v[0xF, 0x9, 0xF, 0x9, 0x9], #v[0xE, 0x9, 0xE, 0x9, 0xE],
    #v[0xF, 0x8, 0x8, 0x8, 0xF], #v[0xE, 0x9, 0x9, 0x9, 0xE], #v[0xF, 0x8, 0xF, 0x8, 0xF], #v[0xF, 0x8, 0xF, 0x8, 0x8]]

/-- The default `FONT_GLYPHS` (20_memory.md R57). PRESUMED (log 9): an argument of `State.load`, used by no rule. -/
def defaultFont : Font := defaultGlyphsLow ++ defaultGlyphsHigh

/-! ### Outputs (10_state.md R43, R35) -/

/-- PIXELS: entry `r * 128 + c` is `cell[r][c]`, in either mode. -/
def State.pixels (s : State) : List Bool :=
  (List.range 8192).map fun k => Display.cell s.cells (k / 128) (k % 128)

/-- PIXELS as colours: `FG_COLOR` and `BG_COLOR` are open parameters of the rendering (10_state.md R32; log 10). -/
def State.pixelColours {Colour : Type} (fg bg : Colour) (s : State) : List Colour :=
  s.pixels.map fun p => if p then fg else bg

/-- MODE. -/
def State.modeOut (s : State) : Bool := s.ext

/-- STATUS: the step status, together with the fault record while the core is halted. -/
def State.statusOut (s : State) : Status × Option (FaultCause × Addr × Word) :=
  (s.status, if s.halted then some (s.faultCause, s.faultPc, s.faultBytes) else none)

end Sys2Proof.Machine
end

