-- ==== Sys2Proof/Machine/Step.lean ====
section
/-! DEFINITION. One STEP (10_state.md R44, 30_encoding.md R75). -/

namespace Sys2Proof.Machine

/-- One STEP. While the core is halted it fetches nothing and reports the fault record (60_exceptions.md R202; log 6);
else it fetches two bytes, moves the pc past them, and runs the instruction they are, or raises
`UNRECOGNIZED_OPCODE` (30_encoding.md R75, R76). -/
def step (s : State) : Host.Outcome State Fault Refusal :=
  if s.halted then .fault (.illegalInstruction s.faultCause s.faultPc s.faultBytes)
  else
    match decode s.fetch.1 s.fetch.2 with
    | .ok i => exec i s.begin
    | .error _ => .next (s.begin.raiseIllegal s.fetch.1 s.fetch.2)

/-- A word of the opcode table placed where the next step fetches. -/
def State.withFetchWord (s : State) (nbits w : Nat) : State := s.placeWord (tableWord nbits w)

end Sys2Proof.Machine
end

