-- ==== Sys2Proof/Machine/Commands.lean ====
section
/-! DEFINITION. The commands the host can give the block (70_reset_and_hazards.md R228): the moves of the second party
(00_scope.md R4). -/

namespace Sys2Proof.Machine

/-- A move of the host: a STEP at any time, a RESET outside a step, or a LOAD at launch. -/
inductive HostCommand where
  | step
  | reset
  | load (font : Font) (program : List Byte)
  deriving DecidableEq, Repr

/-- What one command makes of the state. -/
def State.command (s : State) : HostCommand → Host.Outcome State Fault Refusal
  | .step => step s
  | .reset => .next s.resetCommand
  | .load font program => s.load font program

end Sys2Proof.Machine
end

