-- ==== Sys2Proof/Safety.lean ====
section
/-! DEFINITION. What claims use: the outcomes of a run (70_reset_and_hazards.md R227), the invariant of the machine, the
frames of the instructions, and what a sprite covers. -/

namespace Sys2Proof.Machine

/-! ### The step's bytes -/

/-- What the decoder reads from the two bytes at the pc. -/
def State.decoded (s : State) : Except Rejected Instr := decode (s.readByte s.pc) (s.readByte (s.pc + 1))

/-- The instruction word at the pc (20_memory.md R52). -/
def State.wordAtPc (s : State) : Word := wordOfBytes (s.readByte s.pc) (s.readByte (s.pc + 1))

/-! ### Outcomes of a run (70_reset_and_hazards.md R227) -/

/-- A halted state: never a normal end (70_reset_and_hazards.md R227, 60_exceptions.md R202). -/
def State.faulted (s : State) : Prop := s.halted = true

/-- A parked state: not halted, and the instruction at the pc is a jump to the pc itself (R227). -/
def State.parked (s : State) : Prop :=
  s.halted = false ∧ s.decoded = .ok (.jp s.pc)

/-- Neither parked nor faulted (R227). -/
def State.running (s : State) : Prop := ¬ s.parked ∧ ¬ s.faulted

/-- Two states that agree on everything the spec gives the block: they may differ in the host's side of a step and in
the status output. -/
def State.sameBlock (s t : State) : Prop := t = { s with env := t.env, status := t.status }

/-! ### The invariant -/

/-- The fault latch tells one story: halted, a cause and the status FAULT come together (10_state.md R34, R35;
60_exceptions.md R200). -/
abbrev State.latchInv (s : State) : Prop :=
  (s.halted = true ↔ s.faultCause ≠ .none) ∧ (s.halted = true ↔ s.status = .fault)

/-- Bits 15 to 12 of every stack entry are 0 (10_state.md R27). -/
abbrev State.stackInv (s : State) : Prop := ∀ k : Fin 16, s.stack[k] < 0x1000#16

/-- The wall clock is not negative and not before the delay timer's reference (10_state.md R49), and both times are ones
that a clock of granularity `CLOCK_RESOLUTION` shows (00_scope.md R5). -/
abbrev State.clockInv (s : State) : Prop :=
  0 ≤ s.dstamp ∧ s.dstamp ≤ s.env.now ∧ atResolution Config.clockResolution s.dstamp = s.dstamp ∧
    atResolution Config.clockResolution s.env.now = s.env.now

/-- The invariant every step keeps: canonical memory, 12-bit stack entries, an ordered clock and a consistent latch. -/
abbrev State.Inv (s : State) : Prop := Memory.wf s.mem ∧ s.stackInv ∧ s.clockInv ∧ s.latchInv

/-! ### Frames -/

/-- Register `x` becomes `b`; every other register, every byte of memory and every other field is unchanged. -/
def State.writesReg (s t : State) (x : Reg) (b : Byte) : Prop :=
  t.reg x = b ∧ (∀ z, z ≠ x → t.reg z = s.reg z) ∧ (∀ a, t.readByte a = s.readByte a) ∧ t = { s with v := t.v }

/-- Register `x` becomes `b` and then VF becomes `f`, so VF holds the flag when `x` is 15; every other register, every
byte of memory and every other field is unchanged. -/
def State.writesRegFlag (s t : State) (x : Reg) (b f : Byte) : Prop :=
  t.reg regVF = f ∧ (x ≠ regVF → t.reg x = b) ∧ (∀ z, z ≠ x → z ≠ regVF → t.reg z = s.reg z) ∧
    (∀ a, t.readByte a = s.readByte a) ∧ t = { s with v := t.v }

/-- The pc becomes `a`; every register, every byte of memory and every other field is unchanged. -/
def State.writesPc (s t : State) (a : Addr) : Prop :=
  (∀ c, t.readByte c = s.readByte c) ∧ t = { s with pc := a }

/-- The index register becomes `a`; every register, every byte of memory and every other field is unchanged. -/
def State.writesI (s t : State) (a : Addr) : Prop :=
  (∀ c, t.readByte c = s.readByte c) ∧ t = { s with i := a }

/-! ### The display (43_display.md R160, R165, R167) -/

/-- Cell `(r, c)` belongs to a set bit of the sprite of `n` rows at `I`, drawn at the coordinates in `V[x]` and `V[y]`:
the logical pixel of the active mode is the cell itself in extended mode, and the 2x2 block around it in normal mode. -/
def State.spriteCovers (s : State) (x y : Reg) (n : Nibble) (r c : Nat) : Prop :=
  ∃ row bit : Nat, row < n.toNat ∧ bit < 8 ∧
    (s.readByte (s.i + BitVec.ofNat 12 row)).getLsbD (7 - bit) = true ∧
    if s.ext then r = ((s.reg y).toNat + row) % 64 ∧ c = ((s.reg x).toNat + bit) % 128
    else r / 2 = ((s.reg y).toNat + row) % 32 ∧ c / 2 = ((s.reg x).toNat + bit) % 64

/-- The four cells of every 2x2 block hold the same value. -/
def Display.uniformBlocks (d : Display) : Prop :=
  ∀ r c, r < 64 → c < 128 → Display.cell d r c = Display.cell d (2 * (r / 2)) (2 * (c / 2))

end Sys2Proof.Machine
end

