-- ==== Sys2Proof/Certificates/Slice0/Obligations.lean ====
section
/-! DEFINITION. The statements for the provers, from the numbered rules of spec/. A statement about an instruction holds
for every operand the encoding admits and for every state; where a clause rests on a decision of the spec
(92_eei_decisions.md) or on a log entry, its docstring names it. A statement about a host input (`env.now`, `env.rand8`,
`env.keys`) holds for every value of it. -/

open Sys2Proof Sys2Proof.Machine

/-! ### Encoding -/

/-- A few words, written out from the encodings of R71 and R74, decode to what they stand for. -/
def Obligations.KnownWordsDecode : Prop :=
  decode 0x60 0x05 = .ok (.ldImm 0 0x05) ∧ decode 0x00 0xC2 = .ok (.scd 2) ∧ decode 0x22 0x0A = .ok (.call 0x20A) ∧
  decode 0x83 0xA6 = .ok (.shr 3 0xA) ∧ decode 0xD0 0x12 = .ok (.drw 0 1 2) ∧ decode 0xE1 0xA1 = .ok (.sknp 1) ∧
  decode 0xF3 0x55 = .ok (.storeRegs 3) ∧ decode 0x51 0x21 = .error .skipNibble ∧
  decode 0x00 0xFD = .error .zeroFamily ∧ decode 0xF0 0xFF = .error .miscByte

/-- Decoding the encoding of any instruction gives the instruction back, from its word and from its two bytes in memory
order (R52, R71, R74). -/
def Obligations.DecodeOfEncodeIsTheInstruction : Prop :=
  ∀ i : Instr, decodeWord (encode i) = .ok i ∧ decode (opcodeByte (encode i)) (fieldNN (encode i)) = .ok i

/-- A word that decodes is the encoding of what it decodes to: no bit of a legal word is ignored (R71, R76). -/
def Obligations.LegalWordIsTheEncoding : Prop :=
  ∀ (w : Word) (i : Instr), decodeWord w = .ok i → encode i = w

/-- The decoder accepts exactly the words that match a row of the opcode map, the row being the one of the instruction's
own pattern, and no word matches two rows (R74). -/
def Obligations.DecoderFollowsTheOpcodeMap : Prop :=
  opcodeTable.length = 37 ∧
  (∀ w : Word, (∃ i, decodeWord w = .ok i) ↔ legalWord w = true) ∧
  (∀ (w : Word) (i : Instr), decodeWord w = .ok i → ∃ r ∈ opcodeTable, r.pattern = i.pattern ∧ r.Matches w) ∧
  (∀ (w : Word) (r r' : OpcodeRow), r ∈ opcodeTable → r' ∈ opcodeTable → r.Matches w → r'.Matches w → r = r')

/-- The words that match no row are the five groups of R76, and fetching one raises UNRECOGNIZED_OPCODE (the `5` and
`9` groups rest on 92_eei_decisions.md D6). -/
def Obligations.IllegalWordsAreTheFiveGroups : Prop :=
  (∀ w : Word, (∀ r ∈ opcodeTable, ¬ r.Matches w) ↔
    (fieldOp w = 0x0 ∧ w ≠ 0x00E0 ∧ w ≠ 0x00EE ∧ w ≠ 0x00FE ∧ w ≠ 0x00FF ∧ ¬ (0x00C0 ≤ w ∧ w ≤ 0x00CF)) ∨
    ((fieldOp w = 0x5 ∨ fieldOp w = 0x9) ∧ fieldN w ≠ 0x0) ∨
    (fieldOp w = 0x8 ∧ fieldN w ∈ [0x8#4, 0x9#4, 0xA#4, 0xB#4, 0xC#4, 0xD#4, 0xF#4]) ∨
    (fieldOp w = 0xE ∧ fieldNN w ∉ [0x9E#8, 0xA1#8]) ∨
    (fieldOp w = 0xF ∧
      fieldNN w ∉ [0x07#8, 0x0A#8, 0x15#8, 0x18#8, 0x1E#8, 0x29#8, 0x33#8, 0x55#8, 0x65#8])) ∧
  (∀ s : State, s.halted = false → (∀ r ∈ opcodeTable, ¬ r.Matches s.wordAtPc) →
    ∃ t, step s = .next t ∧ t.halted = true ∧ t.faultCause = .unrecognizedOpcode ∧ t.status = .fault)

/-! ### The step cycle, faults and the halted core -/

/-- A step of a core that is not halted runs the instruction its two bytes decode to, with the pc past it, the status OK
and the step's inputs drawn (R75, R52). -/
def Obligations.StepRunsTheDecodedInstruction : Prop :=
  ∀ (s : State) (i : Instr), s.halted = false → decode (s.readByte s.pc) (s.readByte (s.pc + 1)) = .ok i →
    step s = exec i { s with pc := s.pc + 2, status := .ok, env := s.env.draw }

/-- What a raise does, at the three places that raise: the latch gets the fetch address, the two fetched bytes and the
cause, the status becomes FAULT, the pc is left at the fetch address plus 2, and nothing else of the block changes
(R201; what is recorded and the pc are 92_eei_decisions.md D16). -/
def Obligations.RaiseSetsTheLatch : Prop :=
  ∀ s : State, s.halted = false →
    let raised : FaultCause → State := fun c =>
      { s with pc := s.pc + 2, halted := true, faultPc := s.pc, faultCause := c, status := .fault,
               faultBytes := s.readByte s.pc ++ s.readByte (s.pc + 1), env := s.env.draw }
    ((∀ i, s.decoded ≠ .ok i) → step s = .next (raised .unrecognizedOpcode)) ∧
    (∀ nnn, s.decoded = .ok (.call nnn) → s.sp.val = 16 → step s = .next (raised .stackOverflow)) ∧
    (s.decoded = .ok .ret → s.sp.val = 0 → step s = .next (raised .stackUnderflow))

/-- A step faults on exactly three conditions, each with its own cause and code; it does so on no address, alignment,
overflow or operand value (R200; the codes are 92_eei_decisions.md D16). -/
def Obligations.OnlyThreeConditionsFault : Prop :=
  (∀ s t : State, s.halted = false → step s = .next t →
    (t.halted = true ∧ t.faultCause = .unrecognizedOpcode ↔ ∀ i, s.decoded ≠ .ok i) ∧
    (t.halted = true ∧ t.faultCause = .stackOverflow ↔ (∃ nnn, s.decoded = .ok (.call nnn)) ∧ s.sp.val = 16) ∧
    (t.halted = true ∧ t.faultCause = .stackUnderflow ↔ s.decoded = .ok .ret ∧ s.sp.val = 0) ∧
    (t.halted = true → t.faultCause ≠ .none)) ∧
  FaultCause.none.code = 0 ∧ FaultCause.unrecognizedOpcode.code = 1 ∧ FaultCause.stackOverflow.code = 2 ∧
  FaultCause.stackUnderflow.code = 3

/-- Nothing is refused: every instruction answers a next state in every state, and so does every step of a core that is
not halted (20_memory.md section 1, 60_exceptions.md section 1). -/
def Obligations.EveryInstructionCompletes : Prop :=
  (∀ (i : Instr) (s : State), ∃ t, exec i s = .next t) ∧
  (∀ s : State, s.halted = false → ∃ t, step s = .next t)

/-- A halted core leaves the halt by RESET alone, and keeps its fault record until then: a STEP reports the record and
gives no next state (that it is the outcome `fault` is the model's choice, log 6), a LOAD during a run is refused (log 12),
and every command but RESET that gives a next state leaves the core halted with the same record and status
(60_exceptions.md section 1; the record is 92_eei_decisions.md D16, the status RESET leaves D17). -/
def Obligations.HaltedUntilReset : Prop :=
  ∀ s : State, s.halted = true →
    step s = .fault (.illegalInstruction s.faultCause s.faultPc s.faultBytes) ∧
    (s.env.inRun = true → ∀ font program, s.command (.load font program) = .refused .loadDuringRun) ∧
    (∀ (c : HostCommand) (t : State), c ≠ .reset → s.command c = .next t →
      t.halted = true ∧ t.faultCause = s.faultCause ∧ t.faultPc = s.faultPc ∧ t.faultBytes = s.faultBytes ∧
      t.status = s.status) ∧
    ∃ t, s.command .reset = .next t ∧ t.halted = false ∧ t.status = .ok

/-- The pc after every step, instruction by instruction (R26; the pc's 12 bits are 92_eei_decisions.md D1, the rewind of
`Fx0A` D10, the pc that a raise leaves D16 (log 14), the key answers D11 and their form log 3). -/
def Obligations.PcAfterEveryStep : Prop :=
  ∀ s t : State, s.halted = false → step s = .next t →
    ((∀ i, s.decoded ≠ .ok i) → t.pc = s.pc + 2) ∧
    ∀ i, s.decoded = .ok i → t.pc =
      match i with
      | .jp nnn => nnn
      | .call nnn => if s.sp.val = 16 then s.pc + 2 else nnn
      | .ret => if s.sp.val = 0 then s.pc + 2 else (s.stack[s.sp.val - 1]?.getD 0).setWidth 12
      | .jpV0 nnn => BitVec.ofNat 12 (nnn.toNat + (s.reg 0).toNat)
      | .seImm x nn => if s.reg x = nn then s.pc + 4 else s.pc + 2
      | .sneImm x nn => if s.reg x = nn then s.pc + 2 else s.pc + 4
      | .seReg x y => if s.reg x = s.reg y then s.pc + 4 else s.pc + 2
      | .sneReg x y => if s.reg x = s.reg y then s.pc + 2 else s.pc + 4
      | .skp x => if s.env.draw.keys[0].getLsbD (s.reg x).toNat then s.pc + 4 else s.pc + 2
      | .sknp x => if s.env.draw.keys[0].getLsbD (s.reg x).toNat then s.pc + 2 else s.pc + 4
      | .waitKey _ => if ∃ k : Fin 16, s.env.draw.keys[k].getLsbD k.val = true then s.pc + 2 else s.pc
      | _ => s.pc + 2

/-! ### The invariant -/

/-- Every step keeps the invariant: canonical memory (its form is log 8), 12-bit stack entries, an ordered clock that shows
multiples of its granularity (log 1), a consistent latch (log 5). -/
def Obligations.StepKeepsTheInvariant : Prop :=
  ∀ s t : State, s.Inv → step s = .next t → t.Inv

/-- The other commands of the host keep the invariant too: RESET always, LOAD where it is not refused. -/
def Obligations.ResetAndLoadKeepTheInvariant : Prop :=
  ∀ s t : State, s.Inv → (s.command .reset = .next t ∨ ∃ font program, s.command (.load font program) = .next t) → t.Inv

/-- The invariant holds at power-on. -/
def Obligations.PowerOnHasTheInvariant : Prop := State.reset.Inv

/-- Successive samples of the wall clock never decrease (R49, the host's duty of 92_eei_decisions.md D13; the form of
the sample is log 1). -/
def Obligations.ClockNeverGoesBack : Prop :=
  ∀ s t : State, step s = .next t ∨ s.command .reset = .next t → s.env.now ≤ t.env.now ∧ t.env.draws = s.env.draws + 1

/-! ### Reset and launch -/

/-- RESET gives every element its reset value and leaves memory as it was; after it the delay timer reads 0 at every
time the host may supply (R220; the values of `sp`, `S`, `dval`, `dstamp`, `ext`, the latch and `status` are
92_eei_decisions.md D17). -/
def Obligations.ResetGivesTheResetValues : Prop :=
  ∀ s : State, ∃ t, s.command .reset = .next t ∧
    (∀ x, t.reg x = 0) ∧ t.i = 0 ∧ t.pc = 0x200 ∧ t.sp.val = 0 ∧ (∀ k : Fin 16, t.stack[k] = 0) ∧ t.dval = 0 ∧
    t.dstamp = t.env.now ∧ (∀ r c, Display.cell t.cells r c = false) ∧ t.ext = false ∧ t.halted = false ∧
    t.status = .ok ∧ (∀ a, t.readByte a = s.readByte a) ∧
    (∀ now, t.dstamp ≤ now → t.delayNow now = 0)

/-- At power-on the state is the reset state with every byte of memory 0: RESET of it changes only the host's side and
the timer's reference (R221; 92_eei_decisions.md D18). -/
def Obligations.PowerOnIsTheResetState : Prop :=
  (∀ a, State.reset.readByte a = 0) ∧
  ∃ t, State.reset.command .reset = .next t ∧ t = { State.reset with env := t.env, dstamp := t.dstamp }

/-- LOAD at launch writes the font from 0x000, each declared nibble in the high half of its byte (R56), and the program from
0x200, leaves every other byte, and changes no register; a program of more than 3584 bytes is refused (R222;
92_eei_decisions.md D18 and D22). -/
def Obligations.LoadWritesTheLaunchImage : Prop :=
  ∀ (s : State) (font : Font) (program : List Byte), s.env.inRun = false →
    (3584 < program.length → s.command (.load font program) = .refused .oversizeProgram) ∧
    (program.length ≤ 3584 → Memory.wf s.mem → ∃ t, s.command (.load font program) = .next t ∧
      t = { s with mem := t.mem } ∧
      ∀ a : Addr, t.readByte a =
        if h : a.toNat < 80 then (font[a.toNat / 5]'(by omega))[a.toNat % 5]'(Nat.mod_lt _ (by decide)) ++ 0x0#4
        else if 0x200 ≤ a.toNat ∧ a.toNat < 0x200 + program.length then program[a.toNat - 0x200]?.getD 0
        else s.readByte a)

/-- A LOAD and a RESET commute, before a run (70_reset_and_hazards.md section 2), and no LOAD is made while a run is in
progress: every step begins one (92_eei_decisions.md D23; the refusal is the model's choice, log 12). -/
def Obligations.ResetAndLoadCommute : Prop :=
  (∀ (s t u : State) (font : Font) (program : List Byte), s.env.inRun = false →
    s.command .reset = .next t → s.command (.load font program) = .next u → t.command (.load font program) = u.command .reset) ∧
  (∀ (s t : State) (font : Font) (program : List Byte), step s = .next t →
    t.command (.load font program) = .refused .loadDuringRun)

/-! ### Control flow -/

/-- `1nnn` and `Bnnn`: the encodings, the target mod 4096, and nothing else changed (R101, R107). -/
def Obligations.JumpsSetThePc : Prop :=
  ∀ (nnn : Addr) (s : State),
    decodeWord (0x1#4 ++ nnn) = .ok (.jp nnn) ∧ decodeWord (0xB#4 ++ nnn) = .ok (.jpV0 nnn) ∧
    (∃ t, exec (.jp nnn) s = .next t ∧ s.writesPc t nnn) ∧
    (∃ t, exec (.jpV0 nnn) s = .next t ∧ s.writesPc t (BitVec.ofNat 12 ((nnn.toNat + (s.reg 0).toNat) % 4096)))

/-- `2nnn`: with room on the stack the pc is pushed and the pc becomes `nnn`; with 16 entries in use it raises
STACK_OVERFLOW and writes nothing else (R102; the discipline is 92_eei_decisions.md D15, the record D16). -/
def Obligations.CallPushesTheReturnAddress : Prop :=
  ∀ (nnn : Addr) (s : State),
    decodeWord (0x2#4 ++ nnn) = .ok (.call nnn) ∧
    (∀ h : s.sp.val < 16, ∃ t, exec (.call nnn) s = .next t ∧ t.pc = nnn ∧ t.sp.val = s.sp.val + 1 ∧
      t.stack[s.sp.val] = s.pc.setWidth 16 ∧ (∀ k : Fin 16, k.val ≠ s.sp.val → t.stack[k] = s.stack[k]) ∧
      (∀ a, t.readByte a = s.readByte a) ∧ t = { s with pc := t.pc, sp := t.sp, stack := t.stack }) ∧
    (s.sp.val = 16 → ∃ t, exec (.call nnn) s = .next t ∧ t.halted = true ∧ t.faultCause = .stackOverflow ∧
      t.faultPc = s.pc - 2 ∧ t.status = .fault ∧
      t = { s with halted := t.halted, faultPc := t.faultPc, faultBytes := t.faultBytes, faultCause := t.faultCause,
                   status := t.status })

/-- `00EE`: with an entry in use, the pc becomes the last one pushed, which stays where it is; with none it raises
STACK_UNDERFLOW and writes nothing else (R100; 92_eei_decisions.md D15 and D16). -/
def Obligations.ReturnPopsTheStack : Prop :=
  decodeWord 0x00EE = .ok .ret ∧
  ∀ s : State,
    (∀ h : 0 < s.sp.val, ∃ t, exec .ret s = .next t ∧ t.sp.val = s.sp.val - 1 ∧
      t.pc = (s.stack[s.sp.val - 1]'(by omega)).setWidth 12 ∧
      (∀ a, t.readByte a = s.readByte a) ∧ t = { s with pc := t.pc, sp := t.sp }) ∧
    (s.sp.val = 0 → ∃ t, exec .ret s = .next t ∧ t.halted = true ∧ t.faultCause = .stackUnderflow ∧
      t.faultPc = s.pc - 2 ∧ t.status = .fault ∧
      t = { s with halted := t.halted, faultPc := t.faultPc, faultBytes := t.faultBytes, faultCause := t.faultCause,
                   status := t.status })

/-- A return undoes a call: from any state that has the stack the call left, it goes to the address after the call and
leaves the stack pointer as it was before the call (40_control_flow.md section 2). -/
def Obligations.ReturnUndoesCall : Prop :=
  ∀ (nnn : Addr) (s t u : State), s.sp.val < 16 → exec (.call nnn) s = .next t → u.stack = t.stack → u.sp = t.sp →
    ∃ r, exec .ret u = .next r ∧ r.pc = s.pc ∧ r.sp = s.sp

/-- `3xnn`, `4xnn`: the encodings, the condition on the 8-bit value, and nothing but the pc changed (R103, R104). -/
def Obligations.SkipsOnImmediate : Prop :=
  ∀ (x : Reg) (nn : Byte) (s : State),
    decodeWord (0x3#4 ++ x ++ nn) = .ok (.seImm x nn) ∧ decodeWord (0x4#4 ++ x ++ nn) = .ok (.sneImm x nn) ∧
    (∃ t, exec (.seImm x nn) s = .next t ∧ s.writesPc t (if s.reg x = nn then s.pc + 2 else s.pc)) ∧
    (∃ t, exec (.sneImm x nn) s = .next t ∧ s.writesPc t (if s.reg x = nn then s.pc else s.pc + 2))

/-- `5xy0`, `9xy0`: the encodings, with every other `n` illegal (92_eei_decisions.md D6), the condition, and nothing but
the pc changed; with `x = y` the first always skips and the second never does (R105, R106). -/
def Obligations.SkipsOnRegister : Prop :=
  ∀ (x y : Reg) (s : State),
    (∀ n : Nibble, decodeWord (0x5#4 ++ x ++ y ++ n) = if n = 0 then .ok (.seReg x y) else .error .skipNibble) ∧
    (∀ n : Nibble, decodeWord (0x9#4 ++ x ++ y ++ n) = if n = 0 then .ok (.sneReg x y) else .error .skipNibble) ∧
    (∃ t, exec (.seReg x y) s = .next t ∧ s.writesPc t (if s.reg x = s.reg y then s.pc + 2 else s.pc)) ∧
    (∃ t, exec (.sneReg x y) s = .next t ∧ s.writesPc t (if s.reg x = s.reg y then s.pc else s.pc + 2)) ∧
    (∃ t, exec (.seReg x x) s = .next t ∧ t.pc = s.pc + 2) ∧ (∃ t, exec (.sneReg x x) s = .next t ∧ t.pc = s.pc)

/-! ### Register and arithmetic instructions -/

/-- `6xnn`, `7xnn`: the encodings, the result mod 256, no flag, and nothing else changed (R120, R121). -/
def Obligations.ImmediateLoadAndAdd : Prop :=
  ∀ (x : Reg) (nn : Byte) (s : State),
    decodeWord (0x6#4 ++ x ++ nn) = .ok (.ldImm x nn) ∧ decodeWord (0x7#4 ++ x ++ nn) = .ok (.addImm x nn) ∧
    (∃ t, exec (.ldImm x nn) s = .next t ∧ s.writesReg t x nn) ∧
    (∃ t, exec (.addImm x nn) s = .next t ∧ s.writesReg t x (s.reg x + nn))

/-- `8xy0`, `8xy2`, `8xy3`: the encodings, the result, no flag, and nothing else changed (R122, R124, R125). -/
def Obligations.CopyAndXorRegisters : Prop :=
  ∀ (x y : Reg) (s : State),
    decodeWord (0x8#4 ++ x ++ y ++ 0x0#4) = .ok (.ldReg x y) ∧ decodeWord (0x8#4 ++ x ++ y ++ 0x2#4) = .ok (.andReg x y) ∧
    decodeWord (0x8#4 ++ x ++ y ++ 0x3#4) = .ok (.xorReg x y) ∧
    (∃ t, exec (.ldReg x y) s = .next t ∧ s.writesReg t x (s.reg y)) ∧
    (∃ t, exec (.andReg x y) s = .next t ∧ s.writesReg t x (s.reg x &&& s.reg y)) ∧
    (∃ t, exec (.xorReg x y) s = .next t ∧ s.writesReg t x (s.reg x ^^^ s.reg y))

/-- `8xy1`: the encoding, the result, and nothing else changed, VF included (R123, 10_state.md section 1). -/
def Obligations.OrRegisters : Prop :=
  ∀ (x y : Reg) (s : State),
    decodeWord (0x8#4 ++ x ++ y ++ 0x1#4) = .ok (.orReg x y) ∧
    (∃ t, exec (.orReg x y) s = .next t ∧ s.writesReg t x (s.reg x ||| s.reg y)) ∧
    (x ≠ regVF → ∃ t, exec (.orReg x y) s = .next t ∧ t.reg regVF = s.reg regVF)

/-- `8xy4`: the sum mod 256, VF the carry, and nothing else changed (R127; with `x = 15` the flag is what is left,
92_eei_decisions.md D5). -/
def Obligations.AddSetsTheCarry : Prop :=
  ∀ (x y : Reg) (s : State),
    decodeWord (0x8#4 ++ x ++ y ++ 0x4#4) = .ok (.addReg x y) ∧
    ∃ t, exec (.addReg x y) s = .next t ∧
      s.writesRegFlag t x (s.reg x + s.reg y) (if 256 ≤ (s.reg x).toNat + (s.reg y).toNat then 1 else 0)

/-- `8xy5`, `8xy7`: the difference mod 256, VF = 1 exactly on underflow, and nothing else changed (R128, R130; with
`x = 15` the flag is what is left, 92_eei_decisions.md D5). -/
def Obligations.SubtractSetsTheUnderflowFlag : Prop :=
  ∀ (x y : Reg) (s : State),
    decodeWord (0x8#4 ++ x ++ y ++ 0x5#4) = .ok (.subReg x y) ∧ decodeWord (0x8#4 ++ x ++ y ++ 0x7#4) = .ok (.subnReg x y) ∧
    (∃ t, exec (.subReg x y) s = .next t ∧
      s.writesRegFlag t x (s.reg x - s.reg y) (if s.reg x < s.reg y then 1 else 0)) ∧
    (∃ t, exec (.subnReg x y) s = .next t ∧
      s.writesRegFlag t x (s.reg y - s.reg x) (if s.reg y < s.reg x then 1 else 0))

/-- `8xy6`, `8xyE`: half and twice the value mod 256, VF the bit shifted out of the original, and nothing else changed,
whatever `y` is (R129, R131; with `x = 15` the flag is what is left, 92_eei_decisions.md D5). -/
def Obligations.ShiftsSetTheBitShiftedOut : Prop :=
  ∀ (x y : Reg) (s : State),
    decodeWord (0x8#4 ++ x ++ y ++ 0x6#4) = .ok (.shr x y) ∧ decodeWord (0x8#4 ++ x ++ y ++ 0xE#4) = .ok (.shl x y) ∧
    (∃ t, exec (.shr x y) s = .next t ∧
      s.writesRegFlag t x (BitVec.ofNat 8 ((s.reg x).toNat / 2)) (BitVec.ofNat 8 ((s.reg x).toNat % 2))) ∧
    (∃ t, exec (.shl x y) s = .next t ∧
      s.writesRegFlag t x (BitVec.ofNat 8 ((s.reg x).toNat * 2)) (BitVec.ofNat 8 ((s.reg x).toNat / 128)))

/-- `Cxnn`: the step's random byte masked, for every random byte, a subset of the bits of `nn`; nothing else changed
(R132; the free draw is 92_eei_decisions.md D12). -/
def Obligations.RandomByteIsMasked : Prop :=
  ∀ (x : Reg) (nn : Byte) (s : State),
    decodeWord (0xC#4 ++ x ++ nn) = .ok (.rnd x nn) ∧
    ∃ t, exec (.rnd x nn) s = .next t ∧ s.writesReg t x (s.env.rand8 &&& nn) ∧
      (∀ k, (t.reg x).getLsbD k = true → nn.getLsbD k = true)

/-- Where `x = y`, the `8` family gives what its own rules say of one operand used twice (R133, an inference the spec
marks as its own). -/
def Obligations.SameRegisterTwice : Prop :=
  ∀ (x : Reg) (s : State), x ≠ regVF →
    (∃ t, exec (.ldReg x x) s = .next t ∧ t = s) ∧ (∃ t, exec (.orReg x x) s = .next t ∧ t = s) ∧
    (∃ t, exec (.andReg x x) s = .next t ∧ t = s) ∧ (∃ t, exec (.xorReg x x) s = .next t ∧ t.reg x = 0) ∧
    (∃ t, exec (.addReg x x) s = .next t ∧ t.reg x = s.reg x * 2 ∧ (t.reg regVF = 1 ↔ (s.reg x).getLsbD 7 = true)) ∧
    (∃ t, exec (.subReg x x) s = .next t ∧ t.reg x = 0 ∧ t.reg regVF = 0) ∧
    (∃ t, exec (.subnReg x x) s = .next t ∧ t.reg x = 0 ∧ t.reg regVF = 0)

/-! ### Index register and memory -/

/-- `Annn`, `Fx29`: the encodings, the value (the whole byte times 5), and nothing but `I` changed (R140, R142). -/
def Obligations.IndexLoads : Prop :=
  ∀ (nnn : Addr) (x : Reg) (s : State),
    decodeWord (0xA#4 ++ nnn) = .ok (.ldI nnn) ∧ decodeWord (0xF#4 ++ x ++ 0x29#8) = .ok (.ldGlyph x) ∧
    (∃ t, exec (.ldI nnn) s = .next t ∧ s.writesI t nnn) ∧
    (∃ t, exec (.ldGlyph x) s = .next t ∧ s.writesI t t.i ∧ t.i.toNat = (s.reg x).toNat * 5)

/-- `Fx1E`: the sum mod 4096, and nothing but `I` changed, VF included (R141, 10_state.md section 1). -/
def Obligations.IndexAdd : Prop :=
  ∀ (x : Reg) (s : State),
    decodeWord (0xF#4 ++ x ++ 0x1E#8) = .ok (.addI x) ∧
    ∃ t, exec (.addI x) s = .next t ∧ s.writesI t t.i ∧ t.i.toNat = (s.i.toNat + (s.reg x).toNat) % 4096

/-- `Fx33`: hundreds, tens and ones at `I`, `I + 1` and `I + 2` (mod 4096, 92_eei_decisions.md D2); every other byte
reads as before and nothing else changes, `I` included (R143). -/
def Obligations.BcdStoresThreeDigits : Prop :=
  ∀ (x : Reg) (s : State),
    decodeWord (0xF#4 ++ x ++ 0x33#8) = .ok (.storeBcd x) ∧
    ∃ t, exec (.storeBcd x) s = .next t ∧ t = { s with mem := t.mem } ∧
      (∀ a, a ≠ s.i → a ≠ s.i + 1 → a ≠ s.i + 2 → t.readByte a = s.readByte a) ∧
      (Memory.wf s.mem →
        (t.readByte s.i).toNat = (s.reg x).toNat / 100 ∧ (t.readByte (s.i + 1)).toNat = (s.reg x).toNat / 10 % 10 ∧
        (t.readByte (s.i + 2)).toNat = (s.reg x).toNat % 10)

/-- `Fx55`: registers 0 to `x` at `I` and up (mod 4096, 92_eei_decisions.md D4), `I` past the last; every other byte reads
as before and nothing else changes (R144). -/
def Obligations.BlockStoreWritesRegisters : Prop :=
  ∀ (x : Reg) (s : State),
    decodeWord (0xF#4 ++ x ++ 0x55#8) = .ok (.storeRegs x) ∧
    ∃ t, exec (.storeRegs x) s = .next t ∧ t = { s with mem := t.mem, i := t.i } ∧
      t.i.toNat = (s.i.toNat + x.toNat + 1) % 4096 ∧
      (∀ a, (∀ k, k ≤ x.toNat → a ≠ s.i + BitVec.ofNat 12 k) → t.readByte a = s.readByte a) ∧
      (Memory.wf s.mem → ∀ k : Reg, k ≤ x → t.readByte (s.i + k.setWidth 12) = s.reg k)

/-- `Fx65`: registers 0 to `x` from `I` and up (mod 4096, 92_eei_decisions.md D4), `I` past the last; every other register
and everything else is unchanged (R145). -/
def Obligations.BlockLoadReadsRegisters : Prop :=
  ∀ (x : Reg) (s : State),
    decodeWord (0xF#4 ++ x ++ 0x65#8) = .ok (.loadRegs x) ∧
    ∃ t, exec (.loadRegs x) s = .next t ∧ t = { s with v := t.v, i := t.i } ∧
      t.i.toNat = (s.i.toNat + x.toNat + 1) % 4096 ∧
      (∀ k : Reg, k ≤ x → t.reg k = s.readByte (s.i + k.setWidth 12)) ∧
      (∀ k : Reg, x < k → t.reg k = s.reg k) ∧ (∀ a, t.readByte a = s.readByte a)

/-- A block load undoes a block store where `I` is set back between the two: whatever the registers hold then, the stored
ones come back (42_index_memory.md section 2, the source's "exact inverse"). -/
def Obligations.BlockLoadUndoesBlockStore : Prop :=
  ∀ (x : Reg) (s t u : State), Memory.wf s.mem → exec (.storeRegs x) s = .next t → u.mem = t.mem → u.i = s.i →
    ∃ r, exec (.loadRegs x) u = .next r ∧ (∀ k : Reg, k ≤ x → r.reg k = s.reg k) ∧ r.i = t.i

/-! ### Display -/

/-- `00E0`, `00FE`, `00FF`: the encodings; all cells to background with the mode unchanged, or the mode bit with the
cells unchanged; nothing else changed (R161, R162, R163). -/
def Obligations.ClearAndModeSelection : Prop :=
  decodeWord 0x00E0 = .ok .cls ∧ decodeWord 0x00FE = .ok .low ∧ decodeWord 0x00FF = .ok .high ∧
  ∀ s : State,
    (∃ t, exec .cls s = .next t ∧ t = { s with cells := t.cells } ∧ (∀ r c, Display.cell t.cells r c = false) ∧
      ∀ a, t.readByte a = s.readByte a) ∧
    (∃ t, exec .low s = .next t ∧ t = { s with ext := false } ∧ ∀ a, t.readByte a = s.readByte a) ∧
    (∃ t, exec .high s = .next t ∧ t = { s with ext := true } ∧ ∀ a, t.readByte a = s.readByte a)

/-- `00Cn`: every cell comes from `n` rows of the active mode above it, background at the top; nothing else changed
(R164; a normal-mode row is 2 cell rows, 92_eei_decisions.md D27). -/
def Obligations.ScrollMovesRowsDown : Prop :=
  ∀ (n : Nibble) (s : State),
    decodeWord (0x00C#12 ++ n) = .ok (.scd n) ∧
    ∃ t, exec (.scd n) s = .next t ∧ t = { s with cells := t.cells } ∧ (∀ a, t.readByte a = s.readByte a) ∧
      ∀ r c, r < 64 → c < 128 → Display.cell t.cells r c =
        let k := if s.ext then n.toNat else 2 * n.toNat
        if k ≤ r then Display.cell s.cells (r - k) c else false

/-- `Dxys`: a cell flips exactly when the sprite covers it, VF is 1 exactly when a covered cell was foreground, and
nothing else changes (R165, R166, R160; register coordinates and `s = 0` are 92_eei_decisions.md D7, the four cells of a
block D8 and D26; that no cell is toggled twice is an inference the spec marks as its own). -/
def Obligations.SpriteFlipsTheCellsItCovers : Prop :=
  ∀ (x y : Reg) (n : Nibble) (s : State),
    decodeWord (0xD#4 ++ x ++ y ++ n) = .ok (.drw x y n) ∧
    ∃ t, exec (.drw x y n) s = .next t ∧ t = { s with cells := t.cells, v := t.v } ∧
      (∀ r c, r < 64 → c < 128 →
        (Display.cell t.cells r c ≠ Display.cell s.cells r c ↔ s.spriteCovers x y n r c)) ∧
      (t.reg regVF = 1 ∨ t.reg regVF = 0) ∧
      (t.reg regVF = 1 ↔ ∃ r c, r < 64 ∧ c < 128 ∧ s.spriteCovers x y n r c ∧ Display.cell s.cells r c = true) ∧
      (∀ z, z ≠ regVF → t.reg z = s.reg z) ∧ (∀ a, t.readByte a = s.readByte a)

/-- Drawing the same sprite twice at the same place restores the cells, and the second draw's VF is 1 exactly when the
first set a cell: for any two states that agree on the mode, memory, `I` and the two coordinates, so also for two draws
back to back whose coordinates are not in VF (43_display.md section 2, R165). -/
def Obligations.DrawingTwiceRestoresTheDisplay : Prop :=
  ∀ (x y : Reg) (n : Nibble) (s t u : State), exec (.drw x y n) s = .next t → u.cells = t.cells → u.ext = s.ext →
    u.mem = s.mem → u.i = s.i → u.reg x = s.reg x → u.reg y = s.reg y →
    ∃ r, exec (.drw x y n) u = .next r ∧ r.cells = s.cells ∧
      (r.reg regVF = 1 ↔ ∃ p q, p < 64 ∧ q < 128 ∧ Display.cell s.cells p q = false ∧ Display.cell t.cells p q = true)

/-- The cells of every 2x2 block stay equal under every instruction but an extended-mode draw and an extended-mode scroll
by an odd number of rows (R167, an inference the spec marks as its own). -/
def Obligations.UniformBlocksStayUniform : Prop :=
  ∀ (i : Instr) (s t : State), Display.uniformBlocks s.cells → exec i s = .next t →
    (s.ext = true → (∀ x y n, i ≠ .drw x y n) ∧ (∀ n : Nibble, i = .scd n → n.toNat % 2 = 0)) →
    Display.uniformBlocks t.cells

/-! ### Timer, sound and keys -/

/-- `Fx07`: the effective delay value at the step's clock sample, in 0 to 255 and never negative, and nothing else
changed, for every sample the host may supply (R180, R30; the clock is 92_eei_decisions.md D13). -/
def Obligations.DelayReadIsTheEffectiveValue : Prop :=
  ∀ (x : Reg) (s : State),
    decodeWord (0xF#4 ++ x ++ 0x07#8) = .ok (.ldFromDelay x) ∧
    ∃ t, exec (.ldFromDelay x) s = .next t ∧ s.writesReg t x (t.reg x) ∧
      (s.dstamp ≤ s.env.now →
        ((t.reg x).toNat : Int) = max 0 ((s.dval.toNat : Int) - Rat.floor ((s.env.now - s.dstamp) * 60)))

/-- Two reads 1/60 second apart differ by exactly 1, unless the earlier one is already 0 (R180, an inference the spec
marks as its own). -/
def Obligations.DelayFallsByOneEachTick : Prop :=
  ∀ (s : State) (now : Rat), s.delayNow (now + 1 / 60) = max 0 (s.delayNow now - 1)

/-- `Fx15`: the value and the step's clock sample, and nothing else changed; a read at the same sample gives the value
(R181). -/
def Obligations.DelaySetStoresValueAndTime : Prop :=
  ∀ (x : Reg) (s : State),
    decodeWord (0xF#4 ++ x ++ 0x15#8) = .ok (.setDelay x) ∧
    ∃ t, exec (.setDelay x) s = .next t ∧ t = { s with dval := s.reg x, dstamp := s.env.now } ∧
      (∀ a, t.readByte a = s.readByte a) ∧ t.delayNow s.env.now = (s.reg x).toNat

/-- `Fx18`: exactly one pulse, whatever `V[x]` holds, and nothing else changed (R182; 92_eei_decisions.md D14; the list of
calls is the model's own, log 3). -/
def Obligations.BeepSendsOnePulse : Prop :=
  ∀ (x : Reg) (s : State),
    decodeWord (0xF#4 ++ x ++ 0x18#8) = .ok (.beep x) ∧
    ∃ t, exec (.beep x) s = .next t ∧ t = { s with env := { s.env with calls := s.env.calls ++ [PortCall.beep] } } ∧
      ∀ a, t.readByte a = s.readByte a

/-- `Ex9E`, `ExA1`: one query with the whole byte of `V[x]`, the skip by its answer, whatever the answer is, and nothing
else changed (R183, R184; 92_eei_decisions.md D11; the answers as bits of `env.keys` and the list of calls are the model's
own, log 3). -/
def Obligations.KeySkipsFollowTheAnswer : Prop :=
  ∀ (x : Reg) (s : State),
    let answer := s.env.keys[0].getLsbD (s.reg x).toNat
    let asked := { s.env with calls := s.env.calls ++ [PortCall.keyTest (s.reg x) answer] }
    decodeWord (0xE#4 ++ x ++ 0x9E#8) = .ok (.skp x) ∧ decodeWord (0xE#4 ++ x ++ 0xA1#8) = .ok (.sknp x) ∧
    (∃ t, exec (.skp x) s = .next t ∧ t = { s with pc := if answer then s.pc + 2 else s.pc, env := asked } ∧
      ∀ a, t.readByte a = s.readByte a) ∧
    (∃ t, exec (.sknp x) s = .next t ∧ t = { s with pc := if answer then s.pc else s.pc + 2, env := asked } ∧
      ∀ a, t.readByte a = s.readByte a)

/-- `Fx0A`: the lowest key whose query is answered true is stored; when none is, the pc goes back to the instruction and
the status is WAITING; nothing else of the block changes (R185; 92_eei_decisions.md D10 and D11). -/
def Obligations.WaitKeyStoresTheLowestKeyOrRewinds : Prop :=
  ∀ (x : Reg) (s : State),
    decodeWord (0xF#4 ++ x ++ 0x0A#8) = .ok (.waitKey x) ∧
    ∃ t, exec (.waitKey x) s = .next t ∧ (∀ a, t.readByte a = s.readByte a) ∧
      (∀ k : Fin 16, s.env.keys[k].getLsbD k.val = true → (∀ j : Fin 16, j < k → s.env.keys[j].getLsbD j.val = false) →
        t.reg x = BitVec.ofNat 8 k.val ∧ (∀ z, z ≠ x → t.reg z = s.reg z) ∧
        t = { s with v := t.v, env := { s.env with calls := t.env.calls } }) ∧
      ((∀ k : Fin 16, s.env.keys[k].getLsbD k.val = false) →
        t = { s with pc := s.pc - 2, status := .waiting, env := { s.env with calls := t.env.calls } })

/-- No instruction after `Fx0A` executes until a key has been observed pressed: an `Fx0A` whose own queries are all answered
false leaves the status WAITING and the pc at itself, changes nothing else of the block, and the next step is that same
instruction from the state it ran from, with new inputs; and no other instruction, and no `Fx0A` with a query answered
true, leaves the status WAITING (44_timer_io.md section 2; the rewind and the status are 92_eei_decisions.md D10 (log 14),
the answers D11 and their form log 3). -/
def Obligations.WaitingRepeatsTheInstruction : Prop :=
  (∀ (x : Reg) (s : State), s.halted = false →
    decode (s.readByte (s.pc - 2)) (s.readByte (s.pc - 1)) = .ok (.waitKey x) →
    (∀ k : Fin 16, s.env.keys[k].getLsbD k.val = false) →
    ∃ t, exec (.waitKey x) s = .next t ∧ t = { s with pc := s.pc - 2, status := .waiting, env := t.env } ∧
      step t = exec (.waitKey x) { s with status := .ok, env := t.env.draw }) ∧
  (∀ (i : Instr) (s t : State), s.status = .ok → exec i s = .next t → t.status = .waiting →
    (∃ x, i = .waitKey x) ∧ ∀ k : Fin 16, s.env.keys[k].getLsbD k.val = false)

/-- The port calls of each instruction: one query by `Ex9E` and `ExA1`; by `Fx0A` queries about 0, 1, 2 and on, all but
the last answered false, up to the first true answer or all 16; one pulse by `Fx18`; none by any other (R186;
92_eei_decisions.md D11; the list of calls is the model's own, log 3). -/
def Obligations.PortCallsOfEachInstruction : Prop :=
  ∀ (i : Instr) (s t : State), exec i s = .next t →
    match i with
    | .skp x | .sknp x => ∃ b, t.env.calls = s.env.calls ++ [PortCall.keyTest (s.reg x) b]
    | .beep _ => t.env.calls = s.env.calls ++ [PortCall.beep]
    | .waitKey _ => ∃ n : Nat, n < 16 ∧ ∃ b, (b = true ∨ n = 15) ∧
        t.env.calls = s.env.calls ++ (List.range n).map (fun k => PortCall.keyTest (BitVec.ofNat 8 k) false) ++
          [PortCall.keyTest (BitVec.ofNat 8 n) b]
    | _ => t.env.calls = s.env.calls

/-! ### Who writes what -/

/-- Only `Fx15` writes the delay timer, apart from reset: no other step changes the stored pair (R29). -/
def Obligations.OnlySetDelayWritesTheTimer : Prop :=
  ∀ s t : State, step s = .next t → (∀ x, s.decoded ≠ .ok (.setDelay x)) → t.dval = s.dval ∧ t.dstamp = s.dstamp

/-- VF is written as a flag by six instructions and as a destination by those named with `x = 15`; no other step changes
it (10_state.md section 1, R21). -/
def Obligations.OnlyTheseWriteVF : Prop :=
  ∀ s t : State, s.halted = false → step s = .next t → t.reg regVF ≠ s.reg regVF →
    ∃ i, s.decoded = .ok i ∧
      match i with
      | .addReg _ _ | .subReg _ _ | .subnReg _ _ | .shr _ _ | .shl _ _ | .drw _ _ _ => True
      | .ldImm x _ | .addImm x _ | .ldReg x _ | .orReg x _ | .andReg x _ | .xorReg x _ | .rnd x _ | .ldFromDelay x
      | .waitKey x | .loadRegs x => x = regVF
      | _ => False

/-- A register other than VF is changed only by an instruction that names it as its destination, or by a block load that
reaches it (10_state.md section 1, R22). -/
def Obligations.OnlyTheDestinationChanges : Prop :=
  ∀ (s t : State) (z : Reg), s.halted = false → step s = .next t → z ≠ regVF → t.reg z ≠ s.reg z →
    ∃ i, s.decoded = .ok i ∧
      match i with
      | .ldImm x _ | .addImm x _ | .ldReg x _ | .orReg x _ | .andReg x _ | .xorReg x _ | .addReg x _ | .subReg x _
      | .shr x _ | .subnReg x _ | .shl x _ | .rnd x _ | .ldFromDelay x | .waitKey x => z = x
      | .loadRegs x => z ≤ x
      | _ => False

/-- Only `Fx33` and `Fx55` write memory, and only the bytes their addresses name; every other step leaves every byte as it
was (20_memory.md section 5, R58). -/
def Obligations.OnlyTwoInstructionsWriteMemory : Prop :=
  ∀ (s t : State) (a : Addr), step s = .next t → t.readByte a ≠ s.readByte a →
    (∃ x, s.decoded = .ok (.storeBcd x) ∧ ∃ k, k < 3 ∧ a = s.i + BitVec.ofNat 12 k) ∨
    (∃ x : Reg, s.decoded = .ok (.storeRegs x) ∧ ∃ k, k ≤ x.toNat ∧ a = s.i + BitVec.ofNat 12 k)

/-- Only `Annn`, `Fx1E`, `Fx29`, `Fx55` and `Fx65` write the index register (10_state.md section 2, R23). -/
def Obligations.OnlyFiveInstructionsWriteTheIndex : Prop :=
  ∀ s t : State, step s = .next t → t.i ≠ s.i →
    (∃ nnn, s.decoded = .ok (.ldI nnn)) ∨
    ∃ x, s.decoded = .ok (.addI x) ∨ s.decoded = .ok (.ldGlyph x) ∨ s.decoded = .ok (.storeRegs x) ∨
      s.decoded = .ok (.loadRegs x)

/-- Only `2nnn` writes a stack entry, only `2nnn` and `00EE` move the stack pointer, and by one (10_state.md section 4,
R27, R28). -/
def Obligations.OnlyCallAndReturnReachTheStack : Prop :=
  ∀ s t : State, step s = .next t →
    (t.stack ≠ s.stack → ∃ nnn, s.decoded = .ok (.call nnn)) ∧
    (t.sp ≠ s.sp →
      ((∃ nnn, s.decoded = .ok (.call nnn)) ∧ t.sp.val = s.sp.val + 1) ∨ (s.decoded = .ok .ret ∧ s.sp.val = t.sp.val + 1))

/-- Only `00E0`, `00Cn` and `Dxys` change a cell, and only `00FE` and `00FF` the mode (10_state.md section 6, R33, R36). -/
def Obligations.OnlyDisplayInstructionsWriteTheDisplay : Prop :=
  ∀ s t : State, step s = .next t →
    (t.cells ≠ s.cells → s.decoded = .ok .cls ∨ (∃ n, s.decoded = .ok (.scd n)) ∨ ∃ x y n, s.decoded = .ok (.drw x y n)) ∧
    (t.ext ≠ s.ext → (s.decoded = .ok .low ∧ t.ext = false) ∨ (s.decoded = .ok .high ∧ t.ext = true))

/-- A parked state steps to itself: only the host's side of the step and the status output differ, and it is parked again
(70_reset_and_hazards.md section 4, R227; the outcomes are 92_eei_decisions.md D24). -/
def Obligations.ParkedStaysParked : Prop :=
  ∀ s : State, s.parked → ∃ t, step s = .next t ∧ s.sameBlock t ∧ t.parked ∧ t.status = .ok
end

