-- ==== Sys2Proof/Laws/State.lean ====
section
/-! SUPPORT. What each update of the state does to each field, one lemma per field per update, true by rfl. -/

namespace Sys2Proof.Machine

variable (s : State)

/-! ### `State.setReg` -/

@[simp] theorem State.setReg_v (x : Reg) (b : Byte) : (s.setReg x b).v = s.v.set x.toNat b x.isLt := rfl
@[simp] theorem State.setReg_i (x : Reg) (b : Byte) : (s.setReg x b).i = s.i := rfl
@[simp] theorem State.setReg_pc (x : Reg) (b : Byte) : (s.setReg x b).pc = s.pc := rfl
@[simp] theorem State.setReg_stack (x : Reg) (b : Byte) : (s.setReg x b).stack = s.stack := rfl
@[simp] theorem State.setReg_sp (x : Reg) (b : Byte) : (s.setReg x b).sp = s.sp := rfl
@[simp] theorem State.setReg_dval (x : Reg) (b : Byte) : (s.setReg x b).dval = s.dval := rfl
@[simp] theorem State.setReg_dstamp (x : Reg) (b : Byte) : (s.setReg x b).dstamp = s.dstamp := rfl
@[simp] theorem State.setReg_cells (x : Reg) (b : Byte) : (s.setReg x b).cells = s.cells := rfl
@[simp] theorem State.setReg_ext (x : Reg) (b : Byte) : (s.setReg x b).ext = s.ext := rfl
@[simp] theorem State.setReg_halted (x : Reg) (b : Byte) : (s.setReg x b).halted = s.halted := rfl
@[simp] theorem State.setReg_faultPc (x : Reg) (b : Byte) : (s.setReg x b).faultPc = s.faultPc := rfl
@[simp] theorem State.setReg_faultBytes (x : Reg) (b : Byte) : (s.setReg x b).faultBytes = s.faultBytes := rfl
@[simp] theorem State.setReg_faultCause (x : Reg) (b : Byte) : (s.setReg x b).faultCause = s.faultCause := rfl
@[simp] theorem State.setReg_status (x : Reg) (b : Byte) : (s.setReg x b).status = s.status := rfl
@[simp] theorem State.setReg_mem (x : Reg) (b : Byte) : (s.setReg x b).mem = s.mem := rfl
@[simp] theorem State.setReg_env (x : Reg) (b : Byte) : (s.setReg x b).env = s.env := rfl

/-! ### `State.setI` -/

@[simp] theorem State.setI_v (a : Addr) : (s.setI a).v = s.v := rfl
@[simp] theorem State.setI_i (a : Addr) : (s.setI a).i = a := rfl
@[simp] theorem State.setI_pc (a : Addr) : (s.setI a).pc = s.pc := rfl
@[simp] theorem State.setI_stack (a : Addr) : (s.setI a).stack = s.stack := rfl
@[simp] theorem State.setI_sp (a : Addr) : (s.setI a).sp = s.sp := rfl
@[simp] theorem State.setI_dval (a : Addr) : (s.setI a).dval = s.dval := rfl
@[simp] theorem State.setI_dstamp (a : Addr) : (s.setI a).dstamp = s.dstamp := rfl
@[simp] theorem State.setI_cells (a : Addr) : (s.setI a).cells = s.cells := rfl
@[simp] theorem State.setI_ext (a : Addr) : (s.setI a).ext = s.ext := rfl
@[simp] theorem State.setI_halted (a : Addr) : (s.setI a).halted = s.halted := rfl
@[simp] theorem State.setI_faultPc (a : Addr) : (s.setI a).faultPc = s.faultPc := rfl
@[simp] theorem State.setI_faultBytes (a : Addr) : (s.setI a).faultBytes = s.faultBytes := rfl
@[simp] theorem State.setI_faultCause (a : Addr) : (s.setI a).faultCause = s.faultCause := rfl
@[simp] theorem State.setI_status (a : Addr) : (s.setI a).status = s.status := rfl
@[simp] theorem State.setI_mem (a : Addr) : (s.setI a).mem = s.mem := rfl
@[simp] theorem State.setI_env (a : Addr) : (s.setI a).env = s.env := rfl

/-! ### `State.setPc` -/

@[simp] theorem State.setPc_v (a : Addr) : (s.setPc a).v = s.v := rfl
@[simp] theorem State.setPc_i (a : Addr) : (s.setPc a).i = s.i := rfl
@[simp] theorem State.setPc_pc (a : Addr) : (s.setPc a).pc = a := rfl
@[simp] theorem State.setPc_stack (a : Addr) : (s.setPc a).stack = s.stack := rfl
@[simp] theorem State.setPc_sp (a : Addr) : (s.setPc a).sp = s.sp := rfl
@[simp] theorem State.setPc_dval (a : Addr) : (s.setPc a).dval = s.dval := rfl
@[simp] theorem State.setPc_dstamp (a : Addr) : (s.setPc a).dstamp = s.dstamp := rfl
@[simp] theorem State.setPc_cells (a : Addr) : (s.setPc a).cells = s.cells := rfl
@[simp] theorem State.setPc_ext (a : Addr) : (s.setPc a).ext = s.ext := rfl
@[simp] theorem State.setPc_halted (a : Addr) : (s.setPc a).halted = s.halted := rfl
@[simp] theorem State.setPc_faultPc (a : Addr) : (s.setPc a).faultPc = s.faultPc := rfl
@[simp] theorem State.setPc_faultBytes (a : Addr) : (s.setPc a).faultBytes = s.faultBytes := rfl
@[simp] theorem State.setPc_faultCause (a : Addr) : (s.setPc a).faultCause = s.faultCause := rfl
@[simp] theorem State.setPc_status (a : Addr) : (s.setPc a).status = s.status := rfl
@[simp] theorem State.setPc_mem (a : Addr) : (s.setPc a).mem = s.mem := rfl
@[simp] theorem State.setPc_env (a : Addr) : (s.setPc a).env = s.env := rfl

/-! ### `State.skipIf` -/

@[simp] theorem State.skipIf_v (c : Bool) : (s.skipIf c).v = s.v := rfl
@[simp] theorem State.skipIf_i (c : Bool) : (s.skipIf c).i = s.i := rfl
@[simp] theorem State.skipIf_pc (c : Bool) : (s.skipIf c).pc = if c then s.pc + 2 else s.pc := rfl
@[simp] theorem State.skipIf_stack (c : Bool) : (s.skipIf c).stack = s.stack := rfl
@[simp] theorem State.skipIf_sp (c : Bool) : (s.skipIf c).sp = s.sp := rfl
@[simp] theorem State.skipIf_dval (c : Bool) : (s.skipIf c).dval = s.dval := rfl
@[simp] theorem State.skipIf_dstamp (c : Bool) : (s.skipIf c).dstamp = s.dstamp := rfl
@[simp] theorem State.skipIf_cells (c : Bool) : (s.skipIf c).cells = s.cells := rfl
@[simp] theorem State.skipIf_ext (c : Bool) : (s.skipIf c).ext = s.ext := rfl
@[simp] theorem State.skipIf_halted (c : Bool) : (s.skipIf c).halted = s.halted := rfl
@[simp] theorem State.skipIf_faultPc (c : Bool) : (s.skipIf c).faultPc = s.faultPc := rfl
@[simp] theorem State.skipIf_faultBytes (c : Bool) : (s.skipIf c).faultBytes = s.faultBytes := rfl
@[simp] theorem State.skipIf_faultCause (c : Bool) : (s.skipIf c).faultCause = s.faultCause := rfl
@[simp] theorem State.skipIf_status (c : Bool) : (s.skipIf c).status = s.status := rfl
@[simp] theorem State.skipIf_mem (c : Bool) : (s.skipIf c).mem = s.mem := rfl
@[simp] theorem State.skipIf_env (c : Bool) : (s.skipIf c).env = s.env := rfl

/-! ### `State.writeByte` -/

@[simp] theorem State.writeByte_v (a : Addr) (b : Byte) : (s.writeByte a b).v = s.v := rfl
@[simp] theorem State.writeByte_i (a : Addr) (b : Byte) : (s.writeByte a b).i = s.i := rfl
@[simp] theorem State.writeByte_pc (a : Addr) (b : Byte) : (s.writeByte a b).pc = s.pc := rfl
@[simp] theorem State.writeByte_stack (a : Addr) (b : Byte) : (s.writeByte a b).stack = s.stack := rfl
@[simp] theorem State.writeByte_sp (a : Addr) (b : Byte) : (s.writeByte a b).sp = s.sp := rfl
@[simp] theorem State.writeByte_dval (a : Addr) (b : Byte) : (s.writeByte a b).dval = s.dval := rfl
@[simp] theorem State.writeByte_dstamp (a : Addr) (b : Byte) : (s.writeByte a b).dstamp = s.dstamp := rfl
@[simp] theorem State.writeByte_cells (a : Addr) (b : Byte) : (s.writeByte a b).cells = s.cells := rfl
@[simp] theorem State.writeByte_ext (a : Addr) (b : Byte) : (s.writeByte a b).ext = s.ext := rfl
@[simp] theorem State.writeByte_halted (a : Addr) (b : Byte) : (s.writeByte a b).halted = s.halted := rfl
@[simp] theorem State.writeByte_faultPc (a : Addr) (b : Byte) : (s.writeByte a b).faultPc = s.faultPc := rfl
@[simp] theorem State.writeByte_faultBytes (a : Addr) (b : Byte) : (s.writeByte a b).faultBytes = s.faultBytes := rfl
@[simp] theorem State.writeByte_faultCause (a : Addr) (b : Byte) : (s.writeByte a b).faultCause = s.faultCause := rfl
@[simp] theorem State.writeByte_status (a : Addr) (b : Byte) : (s.writeByte a b).status = s.status := rfl
@[simp] theorem State.writeByte_mem (a : Addr) (b : Byte) : (s.writeByte a b).mem = Memory.write s.mem a.toNat b := rfl
@[simp] theorem State.writeByte_env (a : Addr) (b : Byte) : (s.writeByte a b).env = s.env := rfl

/-! ### `State.raise` -/

@[simp] theorem State.raise_v (c : FaultCause) (w : Word) : (s.raise c w).v = s.v := rfl
@[simp] theorem State.raise_i (c : FaultCause) (w : Word) : (s.raise c w).i = s.i := rfl
@[simp] theorem State.raise_pc (c : FaultCause) (w : Word) : (s.raise c w).pc = s.pc := rfl
@[simp] theorem State.raise_stack (c : FaultCause) (w : Word) : (s.raise c w).stack = s.stack := rfl
@[simp] theorem State.raise_sp (c : FaultCause) (w : Word) : (s.raise c w).sp = s.sp := rfl
@[simp] theorem State.raise_dval (c : FaultCause) (w : Word) : (s.raise c w).dval = s.dval := rfl
@[simp] theorem State.raise_dstamp (c : FaultCause) (w : Word) : (s.raise c w).dstamp = s.dstamp := rfl
@[simp] theorem State.raise_cells (c : FaultCause) (w : Word) : (s.raise c w).cells = s.cells := rfl
@[simp] theorem State.raise_ext (c : FaultCause) (w : Word) : (s.raise c w).ext = s.ext := rfl
@[simp] theorem State.raise_halted (c : FaultCause) (w : Word) : (s.raise c w).halted = true := rfl
@[simp] theorem State.raise_faultPc (c : FaultCause) (w : Word) : (s.raise c w).faultPc = s.fpc := rfl
@[simp] theorem State.raise_faultBytes (c : FaultCause) (w : Word) : (s.raise c w).faultBytes = w := rfl
@[simp] theorem State.raise_faultCause (c : FaultCause) (w : Word) : (s.raise c w).faultCause = c := rfl
@[simp] theorem State.raise_status (c : FaultCause) (w : Word) : (s.raise c w).status = .fault := rfl
@[simp] theorem State.raise_mem (c : FaultCause) (w : Word) : (s.raise c w).mem = s.mem := rfl
@[simp] theorem State.raise_env (c : FaultCause) (w : Word) : (s.raise c w).env = s.env := rfl

/-! ### `State.logCall` -/

@[simp] theorem State.logCall_v (c : PortCall) : (s.logCall c).v = s.v := rfl
@[simp] theorem State.logCall_i (c : PortCall) : (s.logCall c).i = s.i := rfl
@[simp] theorem State.logCall_pc (c : PortCall) : (s.logCall c).pc = s.pc := rfl
@[simp] theorem State.logCall_stack (c : PortCall) : (s.logCall c).stack = s.stack := rfl
@[simp] theorem State.logCall_sp (c : PortCall) : (s.logCall c).sp = s.sp := rfl
@[simp] theorem State.logCall_dval (c : PortCall) : (s.logCall c).dval = s.dval := rfl
@[simp] theorem State.logCall_dstamp (c : PortCall) : (s.logCall c).dstamp = s.dstamp := rfl
@[simp] theorem State.logCall_cells (c : PortCall) : (s.logCall c).cells = s.cells := rfl
@[simp] theorem State.logCall_ext (c : PortCall) : (s.logCall c).ext = s.ext := rfl
@[simp] theorem State.logCall_halted (c : PortCall) : (s.logCall c).halted = s.halted := rfl
@[simp] theorem State.logCall_faultPc (c : PortCall) : (s.logCall c).faultPc = s.faultPc := rfl
@[simp] theorem State.logCall_faultBytes (c : PortCall) : (s.logCall c).faultBytes = s.faultBytes := rfl
@[simp] theorem State.logCall_faultCause (c : PortCall) : (s.logCall c).faultCause = s.faultCause := rfl
@[simp] theorem State.logCall_status (c : PortCall) : (s.logCall c).status = s.status := rfl
@[simp] theorem State.logCall_mem (c : PortCall) : (s.logCall c).mem = s.mem := rfl
@[simp] theorem State.logCall_env_draws (c : PortCall) : (s.logCall c).env.draws = s.env.draws := rfl
@[simp] theorem State.logCall_env_now (c : PortCall) : (s.logCall c).env.now = s.env.now := rfl
@[simp] theorem State.logCall_env_rand8 (c : PortCall) : (s.logCall c).env.rand8 = s.env.rand8 := rfl
@[simp] theorem State.logCall_env_keys (c : PortCall) : (s.logCall c).env.keys = s.env.keys := rfl
@[simp] theorem State.logCall_env_inRun (c : PortCall) : (s.logCall c).env.inRun = s.env.inRun := rfl
@[simp] theorem State.logCall_env_calls (c : PortCall) : (s.logCall c).env.calls = s.env.calls ++ [c] := rfl

/-! ### `State.begin` -/

@[simp] theorem State.begin_v : (s.begin).v = s.v := rfl
@[simp] theorem State.begin_i : (s.begin).i = s.i := rfl
@[simp] theorem State.begin_pc : (s.begin).pc = s.pc + 2 := rfl
@[simp] theorem State.begin_stack : (s.begin).stack = s.stack := rfl
@[simp] theorem State.begin_sp : (s.begin).sp = s.sp := rfl
@[simp] theorem State.begin_dval : (s.begin).dval = s.dval := rfl
@[simp] theorem State.begin_dstamp : (s.begin).dstamp = s.dstamp := rfl
@[simp] theorem State.begin_cells : (s.begin).cells = s.cells := rfl
@[simp] theorem State.begin_ext : (s.begin).ext = s.ext := rfl
@[simp] theorem State.begin_halted : (s.begin).halted = s.halted := rfl
@[simp] theorem State.begin_faultPc : (s.begin).faultPc = s.faultPc := rfl
@[simp] theorem State.begin_faultBytes : (s.begin).faultBytes = s.faultBytes := rfl
@[simp] theorem State.begin_faultCause : (s.begin).faultCause = s.faultCause := rfl
@[simp] theorem State.begin_status : (s.begin).status = .ok := rfl
@[simp] theorem State.begin_mem : (s.begin).mem = s.mem := rfl
@[simp] theorem State.begin_env : (s.begin).env = s.env.draw := rfl

end Sys2Proof.Machine
end

