-- ==== Sys2Proof/Laws/Memory.lean ====
section
/-! SUPPORT. Memory: a read after a write, and the canonical form, which every memory operation keeps
(20_memory.md R50, R60). -/

namespace Sys2Proof.Machine

/-- An address that is not listed reads as unlisted. -/
theorem Memory.read_of_absent (m : Memory) (a : Nat) (h : ∀ c ∈ m, c.1 ≠ a) : Memory.read m a = Memory.unlisted := by
  induction m with
  | nil => rfl
  | cons c rest ih =>
    simp only [Memory.read, if_neg (Ne.symm (h c (by simp)))]
    exact ih fun d hd => h d (by simp [hd])

/-- A listed address reads as its byte, when addresses rise. -/
theorem Memory.read_of_mem (m : Memory) (h : m.Pairwise fun c d => c.1 < d.1) {c : Host.Cell} (hc : c ∈ m) :
    Memory.read m c.1 = c.2 := by
  induction m with
  | nil => cases hc
  | cons d rest ih =>
    obtain ⟨hd, hr⟩ := List.pairwise_cons.1 h
    rcases List.mem_cons.1 hc with rfl | hm
    · simp [Memory.read]
    · simp only [Memory.read, if_neg (Nat.ne_of_gt (hd c hm))]
      exact ih hr hm

/-- A write leaves every other address alone. -/
theorem Memory.read_write_other (m : Memory) {a c : Nat} (b : Byte) (h : c ≠ a) :
    Memory.read (Memory.write m a b) c = Memory.read m c := by
  induction m with
  | nil => by_cases hb : b = 0#8 <;> simp [Memory.write, Memory.read, hb, h]
  | cons d rest ih =>
    simp only [Memory.write]
    split_ifs with h1 hb h2 hb
    · rfl
    · simp [Memory.read, h]
    · simp [Memory.read, ← h2, h]
    · simp [Memory.read, ← h2, h]
    · simp only [Memory.read, ih]

/-- A read of the byte just written gives it, when addresses rise. -/
theorem Memory.read_write_same (m : Memory) (a : Nat) (b : Byte) (h : m.Pairwise fun c d => c.1 < d.1) :
    Memory.read (Memory.write m a b) a = b := by
  induction m with
  | nil => by_cases hb : b = 0#8 <;> simp [Memory.write, Memory.read, hb]
  | cons d rest ih =>
    obtain ⟨hd, hr⟩ := List.pairwise_cons.1 h
    have absent : a ≤ d.1 → Memory.read rest a = Memory.unlisted := fun hle =>
      Memory.read_of_absent rest a fun e he => by have := hd e he; omega
    simp only [Memory.write]
    split_ifs with h1 hb h2 hb
    · rw [hb, Memory.read, if_neg (by omega), absent (by omega)]
    · simp [Memory.read]
    · rw [hb, absent (by omega)]
    · simp [Memory.read]
    · rw [Memory.read, if_neg h2, ih hr]

/-- What every address reads after a write. -/
theorem Memory.read_write (m : Memory) (a c : Nat) (b : Byte) (h : m.Pairwise fun c d => c.1 < d.1) :
    Memory.read (Memory.write m a b) c = if c = a then b else Memory.read m c := by
  split_ifs with hc
  · rw [hc, Memory.read_write_same m a b h]
  · exact Memory.read_write_other m b hc

/-- The entries of a memory after a write: the one written, or old ones. -/
theorem Memory.mem_write {m : Memory} {a : Nat} {b : Byte} {c : Host.Cell} (h : c ∈ Memory.write m a b) :
    (c = (a, b) ∧ b ≠ Memory.unlisted) ∨ c ∈ m := by
  induction m with
  | nil =>
    simp only [Memory.write] at h
    split_ifs at h with hb
    · cases h
    · exact .inl ⟨by simpa using h, hb⟩
  | cons d rest ih =>
    simp only [Memory.write] at h
    split_ifs at h with h1 hb h2 hb
    · exact .inr h
    · rcases List.mem_cons.1 h with h | h
      · exact .inl ⟨h, hb⟩
      · exact .inr h
    · exact .inr (by simp [h])
    · rcases List.mem_cons.1 h with h | h
      · exact .inl ⟨h, hb⟩
      · exact .inr (by simp [h])
    · rcases List.mem_cons.1 h with h | h
      · exact .inr (by simp [h])
      · rcases ih h with h | h
        · exact .inl h
        · exact .inr (by simp [h])

/-- A write keeps addresses rising. -/
theorem Memory.write_rising (m : Memory) (a : Nat) (b : Byte) (h : m.Pairwise fun c d => c.1 < d.1) :
    (Memory.write m a b).Pairwise fun c d => c.1 < d.1 := by
  induction m with
  | nil => by_cases hb : b = 0#8 <;> simp [Memory.write, hb]
  | cons d rest ih =>
    obtain ⟨hd, hr⟩ := List.pairwise_cons.1 h
    simp only [Memory.write]
    split_ifs with h1 hb h2 hb
    · exact h
    · refine List.pairwise_cons.2 ⟨fun e he => ?_, h⟩
      rcases List.mem_cons.1 he with rfl | he
      · exact h1
      · exact lt_trans h1 (hd e he)
    · exact hr
    · exact List.pairwise_cons.2 ⟨fun e he => by simpa [h2] using hd e he, hr⟩
    · refine List.pairwise_cons.2 ⟨fun e he => ?_, ih hr⟩
      rcases Memory.mem_write he with ⟨rfl, -⟩ | he
      · show d.1 < a
        omega
      · exact hd e he

/-- A write to the address space keeps the canonical form. -/
theorem Memory.write_wf {m : Memory} {a : Nat} {b : Byte} (h : Memory.wf m) (ha : a < Config.memSize) :
    Memory.wf (Memory.write m a b) := by
  refine ⟨Memory.write_rising m a b h.1, fun c hc => ?_⟩
  rcases Memory.mem_write hc with ⟨rfl, hb⟩ | hc
  · exact ⟨ha, hb⟩
  · exact h.2 c hc

/-- Equal memories are equal data: canonical memories that read the same are the same list. -/
theorem Memory.ext_of_wf {m m' : Memory} (h : Memory.wf m) (h' : Memory.wf m')
    (hr : ∀ a, Memory.read m a = Memory.read m' a) : m = m' := by
  have sub : ∀ {m m' : Memory}, Memory.wf m → Memory.wf m' → (∀ a, Memory.read m a = Memory.read m' a) → m ⊆ m' := by
    intro m m' h h' hr c hc
    by_contra hn
    have hread := Memory.read_of_mem m h.1 hc
    rw [hr] at hread
    by_cases hex : ∃ d ∈ m', d.1 = c.1
    · obtain ⟨d, hd, hdc⟩ := hex
      have := Memory.read_of_mem m' h'.1 hd
      rw [hdc, hread] at this
      exact hn (by rwa [Prod.ext hdc.symm this])
    · rw [Memory.read_of_absent m' c.1 fun d hd he => hex ⟨d, hd, he⟩] at hread
      exact (h.2 c hc).2 hread.symm
  have nd : ∀ {m : Memory}, Memory.wf m → m.Nodup := fun h => h.1.imp fun hlt he => by simp [he] at hlt
  refine List.Perm.eq_of_pairwise (le := fun c d => c.1 < d.1) (fun a b _ _ hab hba => absurd hab (by omega)) h.1 h'.1
    ((List.perm_ext_iff_of_nodup (nd h) (nd h')).2 fun c => ⟨fun hc => sub h h' hr hc, fun hc => ?_⟩)
  exact sub h' h (fun a => (hr a).symm) hc

/-- What every address reads after bytes are written at rising addresses. -/
theorem Memory.read_writeBytes (bs : List Byte) (m : Memory) (a c : Nat) (h : m.Pairwise fun c d => c.1 < d.1) :
    Memory.read (Memory.writeBytes m a bs) c =
      if a ≤ c ∧ c < a + bs.length then bs[c - a]?.getD 0 else Memory.read m c := by
  induction bs generalizing m a with
  | nil =>
    rw [if_neg (by simp)]
    rfl
  | cons b bs ih =>
    rw [Memory.writeBytes, ih _ _ (Memory.write_rising m a b h), Memory.read_write m a c b h]
    simp only [List.length_cons]
    by_cases h1 : a + 1 ≤ c ∧ c < a + 1 + bs.length
    · rw [if_pos h1, if_pos (by omega), show c - a = (c - (a + 1)) + 1 by omega]
      rfl
    · rw [if_neg h1]
      by_cases h2 : c = a
      · subst h2
        simp
      · rw [if_neg h2, if_neg (by omega)]

/-- Writing bytes inside the address space keeps the canonical form. -/
theorem Memory.writeBytes_wf (bs : List Byte) {m : Memory} {a : Nat} (h : Memory.wf m)
    (ha : a + bs.length ≤ Config.memSize) : Memory.wf (Memory.writeBytes m a bs) := by
  induction bs generalizing m a with
  | nil => exact h
  | cons b bs ih =>
    simp only [List.length_cons] at ha
    exact ih (Memory.write_wf h (by omega)) (by omega)

/-- `MemRead` depends on memory alone (20_memory.md R59). -/
theorem State.readByte_eq_of_mem {s t : State} (h : t.mem = s.mem) (a : Addr) : t.readByte a = s.readByte a := by
  rw [State.readByte, State.readByte, h]

/-- A register's value depends on the registers alone. -/
theorem State.reg_eq_of_v {s t : State} (h : t.v = s.v) (x : Reg) : t.reg x = s.reg x := by
  simp only [State.reg, h]

/-- `MemRead` after `MemWrite` to the same address. -/
theorem State.readByte_writeByte_same (s : State) (a : Addr) (b : Byte) (h : Memory.wf s.mem) :
    (s.writeByte a b).readByte a = b :=
  Memory.read_write_same _ _ _ h.1

/-- `MemRead` after `MemWrite` to another address. -/
theorem State.readByte_writeByte_other (s : State) {a c : Addr} (b : Byte) (h : c ≠ a) :
    (s.writeByte a b).readByte c = s.readByte c :=
  Memory.read_write_other _ _ fun he => h (BitVec.eq_of_toNat_eq he)

/-- `MemWrite` keeps the canonical form. -/
theorem State.writeByte_wf (s : State) (a : Addr) (b : Byte) (h : Memory.wf s.mem) :
    Memory.wf (s.writeByte a b).mem :=
  Memory.write_wf h a.isLt

/-- LOAD keeps the canonical form. -/
theorem Memory.image_wf {m : Memory} (font : Font) {program : List Byte} (h : Memory.wf m)
    (hp : program.length ≤ Config.maxProgram) : Memory.wf (Memory.image m font program) := by
  simp only [Config.maxProgram] at hp
  exact Memory.writeBytes_wf _ (Memory.writeBytes_wf _ h (by simp [Config.memSize]))
    (by simp only [Config.programBase, Config.memSize]; omega)

/-- Power-on memory has the canonical form. -/
theorem State.reset_mem_wf : Memory.wf State.reset.mem := by decide

end Sys2Proof.Machine
end

