-- ==== Sys2Proof/Laws/Registers.lean ====
section
/-! SUPPORT. Registers, stack, ports and block transfers: what each shared operation can do, said once. -/

namespace Sys2Proof.Machine

/-! ### Registers (10_state.md R20) -/

/-- What every register reads after one is written. -/
theorem State.reg_setReg (s : State) (x z : Reg) (b : Byte) :
    (s.setReg x b).reg z = if z = x then b else s.reg z := by
  simp only [State.reg, State.setReg_v, Vector.getElem_set]
  by_cases h : z = x
  · simp [h]
  · rw [if_neg fun he => h (BitVec.eq_of_toNat_eq he.symm), if_neg h]

/-- The register just written. -/
@[simp] theorem State.reg_setReg_same (s : State) (x : Reg) (b : Byte) : (s.setReg x b).reg x = b := by
  simp [State.reg_setReg]

/-- Another register. -/
theorem State.reg_setReg_other (s : State) {x z : Reg} (b : Byte) (h : z ≠ x) : (s.setReg x b).reg z = s.reg z := by
  simp [State.reg_setReg, h]

/-- What every register reads after a result and its flag are written: VF holds the flag (10_state.md R21). -/
theorem State.reg_setRegFlag (s : State) (x z : Reg) (rf : Byte × Byte) :
    (s.setRegFlag x rf).reg z = if z = regVF then rf.2 else if z = x then rf.1 else s.reg z := by
  simp only [State.setRegFlag, State.reg_setReg]

/-- Registers are what their sixteen reads say. -/
theorem State.v_ext {s t : State} (h : ∀ z, s.reg z = t.reg z) : s.v = t.v := by
  refine Vector.ext fun k hk => ?_
  have := h (BitVec.ofNat 4 k)
  simp only [State.reg, BitVec.toNat_ofNat, Nat.mod_eq_of_lt hk] at this
  exact this

/-- A register write is a change of the registers alone. -/
theorem State.setReg_eq (s : State) (x : Reg) (b : Byte) : s.setReg x b = { s with v := (s.setReg x b).v } := rfl

/-- A result and its flag change the registers alone. -/
theorem State.setRegFlag_eq (s : State) (x : Reg) (rf : Byte × Byte) :
    s.setRegFlag x rf = { s with v := (s.setRegFlag x rf).v } := rfl

/-! ### The call stack (10_state.md R28) -/

/-- A push that has room: one entry, one more in use, nothing else. -/
theorem State.push_of_lt (s : State) (a : Addr) (h : s.sp.val < 16) :
    s.push a = some { s with stack := s.stack.set s.sp.val (a.setWidth 16) h, sp := ⟨s.sp.val + 1, by omega⟩ } :=
  dif_pos h

/-- A push on a full stack. -/
theorem State.push_of_full (s : State) (a : Addr) (h : s.sp.val = 16) : s.push a = none :=
  dif_neg (by omega)

/-- A pop that finds an entry: one fewer in use, the entry stays, nothing else changes. -/
theorem State.pop_of_pos (s : State) (h : s.sp.val ≠ 0) :
    s.pop = some (s.stack[s.sp.val - 1]'(by omega), { s with sp := ⟨s.sp.val - 1, by omega⟩ }) :=
  dif_neg h

/-- A pop of an empty stack. -/
theorem State.pop_of_empty (s : State) (h : s.sp.val = 0) : s.pop = none :=
  dif_pos h

/-! ### The ports (10_state.md R47) -/

/-- A query changes no answer. -/
@[simp] theorem State.keyAnswer_logCall (s : State) (c : PortCall) (j : Nibble) (k : Byte) :
    (s.logCall c).keyAnswer j k = s.keyAnswer j k := rfl

/-- The state with another list of port calls made by the step. -/
def State.withCalls (s : State) (cs : List PortCall) : State := { s with env := { s.env with calls := cs } }

/-- Queries answered false, as they are logged. -/
def missedKeys (ks : List Nibble) : List PortCall := ks.map fun k => PortCall.keyTest (k.setWidth 8) false

/-- What polling can do: it finds the first key of the list whose query is answered true, or none is; each query made is
logged in order, and nothing else changes (44_timer_io.md R185, R186). -/
theorem State.pollKeys_cases (ks : List Nibble) (s : State) :
    (∃ pre k post, ks = pre ++ k :: post ∧ (∀ j ∈ pre, s.keyAnswer j (j.setWidth 8) = false) ∧
        s.keyAnswer k (k.setWidth 8) = true ∧
        State.pollKeys ks s =
          (some k, s.withCalls (s.env.calls ++ missedKeys pre ++ [PortCall.keyTest (k.setWidth 8) true]))) ∨
      ((∀ j ∈ ks, s.keyAnswer j (j.setWidth 8) = false) ∧
        State.pollKeys ks s = (none, s.withCalls (s.env.calls ++ missedKeys ks))) := by
  induction ks generalizing s with
  | nil => exact .inr ⟨by simp, by simp [State.pollKeys, State.withCalls, missedKeys]⟩
  | cons k ks ih =>
    by_cases hk : s.keyAnswer k (k.setWidth 8) = true
    · refine .inl ⟨[], k, ks, rfl, by simp, hk, ?_⟩
      simp [State.pollKeys, hk, State.askKey, State.logCall, State.withCalls, missedKeys]
    · have hf : s.keyAnswer k (k.setWidth 8) = false := by simpa using hk
      have hpoll : State.pollKeys (k :: ks) s = State.pollKeys ks (s.askKey k (k.setWidth 8)) := by
        simp [State.pollKeys, hf]
      rcases ih (s.askKey k (k.setWidth 8)) with ⟨pre, k', post, rfl, hpre, hk', h⟩ | ⟨hall, h⟩
      · refine .inl ⟨k :: pre, k', post, rfl, ?_, by simpa [State.askKey] using hk', ?_⟩
        · intro j hj
          rcases List.mem_cons.1 hj with rfl | hj
          · exact hf
          · simpa [State.askKey] using hpre j hj
        · rw [hpoll, h]
          simp [State.askKey, State.logCall, State.withCalls, missedKeys, hf]
      · refine .inr ⟨?_, ?_⟩
        · intro j hj
          rcases List.mem_cons.1 hj with rfl | hj
          · exact hf
          · simpa [State.askKey] using hall j hj
        · rw [hpoll, h]
          simp [State.askKey, State.logCall, State.withCalls, missedKeys, hf]

/-- The sixteen keys, by number. -/
theorem allKeys_eq : allKeys = (List.range 16).map (BitVec.ofNat 4) := by decide

/-- The answer to the query about key `n` that `Fx0A` makes. -/
theorem State.keyAnswer_own (s : State) (n : Nat) (h : n < 16) :
    s.keyAnswer (BitVec.ofNat 4 n) ((BitVec.ofNat 4 n).setWidth 8) = (s.env.keys[n]).getLsbD n := by
  simp [State.keyAnswer, Nat.mod_eq_of_lt h, Nat.mod_eq_of_lt (show n < 256 by omega)]

/-- What polling the sixteen keys can do: it finds the lowest-numbered key whose query is answered true, or none is. -/
theorem State.pollKeys_allKeys (s : State) :
    (∃ n, ∃ h : n < 16, (s.env.keys[n]'h).getLsbD n = true ∧
        (∀ j, ∀ hj : j < n, (s.env.keys[j]'(hj.trans h)).getLsbD j = false) ∧
        State.pollKeys allKeys s = (some (BitVec.ofNat 4 n), s.withCalls (s.env.calls ++
          (List.range n).map (fun j => PortCall.keyTest (BitVec.ofNat 8 j) false) ++
            [PortCall.keyTest (BitVec.ofNat 8 n) true]))) ∨
      ((∀ j, ∀ hj : j < 16, (s.env.keys[j]'hj).getLsbD j = false) ∧
        State.pollKeys allKeys s = (none, s.withCalls (s.env.calls ++
          (List.range 16).map fun j => PortCall.keyTest (BitVec.ofNat 8 j) false))) := by
  have widen : ∀ n, n < 16 → (BitVec.ofNat 4 n).setWidth 8 = BitVec.ofNat 8 n := by decide
  have missed : ∀ n, n ≤ 16 → missedKeys ((List.range n).map (BitVec.ofNat 4)) =
      (List.range n).map fun j => PortCall.keyTest (BitVec.ofNat 8 j) false := fun n hn => by
    rw [missedKeys, List.map_map]
    exact List.map_congr_left fun j hj => by
      have := List.mem_range.1 hj
      simp only [Function.comp, widen j (by omega)]
  rcases State.pollKeys_cases allKeys s with ⟨pre, k, post, hks, hpre, hk, h⟩ | ⟨hall, h⟩
  · have hlen : pre.length < 16 := by
      have := congrArg List.length hks
      simp [allKeys] at this
      omega
    have hk' : k = BitVec.ofNat 4 pre.length := by
      have := congrArg (fun l => l[pre.length]?) hks
      simpa [allKeys_eq, hlen] using this.symm
    have hpre' : pre = (List.range pre.length).map (BitVec.ofNat 4) := by
      have := congrArg (List.take pre.length) hks
      rw [allKeys_eq, ← List.map_take, List.take_range, Nat.min_eq_left (by omega), List.take_left] at this
      exact this.symm
    generalize pre.length = n at *
    subst hk' hpre'
    refine .inl ⟨n, hlen, by rw [← s.keyAnswer_own n hlen]; exact hk, fun j hj => ?_, ?_⟩
    · rw [← s.keyAnswer_own j (by omega)]
      exact hpre _ (List.mem_map.2 ⟨j, List.mem_range.2 hj, rfl⟩)
    · rw [h, missed n (by omega), widen n hlen]
  · refine .inr ⟨fun j hj => ?_, ?_⟩
    · rw [← s.keyAnswer_own j hj]
      exact hall _ (by rw [allKeys_eq]; exact List.mem_map_of_mem (List.mem_range.2 hj))
    · rw [h, allKeys_eq, missed 16 (le_refl _)]

/-- Each sample of the clock is at least the one before (10_state.md R49). -/
theorem Env.le_nextNow (resolution : Option Rat) (e : Env) : e.now ≤ e.nextNow resolution := le_max_left _ _

/-- What a clock shows at a time that it shows is that time. -/
@[simp] theorem atResolution_idem (resolution : Option Rat) (t : Rat) :
    atResolution resolution (atResolution resolution t) = atResolution resolution t := by
  cases resolution with
  | none => rfl
  | some r =>
    by_cases h : 0 < r
    · simp only [atResolution, if_pos h, mul_div_cancel_left₀ _ h.ne', Rat.floor_intCast]
    · simp only [atResolution, if_neg h]

/-- Every clock can show time 0. -/
@[simp] theorem atResolution_zero (resolution : Option Rat) : atResolution resolution 0 = 0 := by
  cases resolution with
  | none => rfl
  | some r => simp [atResolution, show Rat.floor 0 = 0 from rfl]

/-- A sample lies on the clock's grid where the one before does. -/
theorem Env.atResolution_nextNow {resolution : Option Rat} {e : Env} (h : atResolution resolution e.now = e.now) :
    atResolution resolution (e.nextNow resolution) = e.nextNow resolution := by
  rcases max_choice e.now (atResolution resolution (Config.wallClock e.draws)) with hm | hm <;>
    simp only [Env.nextNow, hm, h, atResolution_idem]

/-! ### Block transfers (42_index_memory.md R144, R145) -/

/-- A block store changes memory alone. -/
theorem State.storeBlock_eq (n : Nat) (s : State) :
    State.storeBlock n s = { s with mem := (State.storeBlock n s).mem } := by
  induction n with
  | zero => rfl
  | succ n ih => rw [State.storeBlock, State.writeByte, ih]

/-- A block store keeps the canonical form. -/
theorem State.storeBlock_wf (n : Nat) (s : State) (h : Memory.wf s.mem) : Memory.wf (State.storeBlock n s).mem := by
  induction n with
  | zero => exact h
  | succ n ih => exact State.writeByte_wf _ _ _ ih

/-- A block load changes the registers alone. -/
theorem State.loadBlock_eq (n : Nat) (s : State) :
    State.loadBlock n s = { s with v := (State.loadBlock n s).v } := by
  induction n with
  | zero => rfl
  | succ n ih => rw [State.loadBlock, State.setReg, ih]

/-- What every register reads after a block load of at most 16 bytes. -/
theorem State.reg_loadBlock (n : Nat) (hn : n ≤ 16) (s : State) (z : Reg) :
    (State.loadBlock n s).reg z = if z.toNat < n then s.readByte (s.indexAddr z.toNat) else s.reg z := by
  induction n with
  | zero => simp [State.loadBlock]
  | succ n ih =>
    rw [State.loadBlock, State.reg_setReg, ih (by omega)]
    by_cases hz : z = BitVec.ofNat 4 n
    · have : z.toNat = n := by rw [hz, BitVec.toNat_ofNat]; omega
      rw [if_pos hz, if_pos (by omega), this]
    · have : z.toNat ≠ n := fun h => hz (by rw [← h, BitVec.ofNat_toNat]; simp)
      rw [if_neg hz]
      by_cases h2 : z.toNat < n
      · rw [if_pos h2, if_pos (by omega)]
      · rw [if_neg h2, if_neg (by omega)]

/-- Two offsets below 4096 give the same index-relative address only when they are equal. -/
theorem State.indexAddr_inj (s : State) {j k : Nat} (hj : j < 4096) (hk : k < 4096)
    (h : s.indexAddr j = s.indexAddr k) : j = k := by
  have := congrArg BitVec.toNat (add_left_cancel h : BitVec.ofNat 12 j = BitVec.ofNat 12 k)
  simpa [BitVec.toNat_ofNat, Nat.mod_eq_of_lt hj, Nat.mod_eq_of_lt hk] using this

/-- A byte outside a stored block reads as before. -/
theorem State.readByte_storeBlock_other (n : Nat) (s : State) (a : Addr) (h : ∀ k, k < n → a ≠ s.indexAddr k) :
    (State.storeBlock n s).readByte a = s.readByte a := by
  induction n with
  | zero => rfl
  | succ n ih =>
    rw [State.storeBlock, State.readByte_writeByte_other _ _ (h n (by omega))]
    exact ih fun k hk => h k (by omega)

/-- A byte of a stored block of at most 16 registers reads as its register. -/
theorem State.readByte_storeBlock (n : Nat) (hn : n ≤ 16) (s : State) (hwf : Memory.wf s.mem) (k : Nat) (hk : k < n) :
    (State.storeBlock n s).readByte (s.indexAddr k) = s.reg (BitVec.ofNat 4 k) := by
  induction n with
  | zero => omega
  | succ n ih =>
    rw [State.storeBlock]
    by_cases h : k = n
    · rw [h, State.readByte_writeByte_same _ _ _ (State.storeBlock_wf n s hwf)]
    · rw [State.readByte_writeByte_other _ _ fun he => h (s.indexAddr_inj (by omega) (by omega) he)]
      exact ih (by omega) (by omega)

end Sys2Proof.Machine
end

