-- ==== Sys2Proof/Laws/Display.lean ====
section
/-! SUPPORT. The display: what toggling, compositing and scrolling do to each cell (43_display.md). -/

namespace Sys2Proof.Machine

/-- What every cell reads after one is toggled: that one flips, no other changes (43_display.md R166). -/
theorem Display.cell_toggle (d : Display) (rc : Nat × Nat) (r c : Nat) (hr : rc.1 < 64) (hc : rc.2 < 128) :
    Display.cell (Display.toggle d rc) r c = (Display.cell d r c ^^ decide (rc = (r, c))) := by
  obtain ⟨r0, c0⟩ := rc
  simp only [Display.cell, Display.toggle] at *
  by_cases h : r0 = r
  · subst h
    simp only [Vector.getElem?_setIfInBounds_self_of_lt hr, Option.getD_some, BitVec.getLsbD_xor,
      BitVec.getLsbD_twoPow]
    by_cases hcc : c0 = c
    · simp [hcc, hcc ▸ hc]
    · simp [hcc]
  · rw [Vector.getElem?_setIfInBounds_ne h]
    simp [h]

/-- Displays are what their cells say. -/
theorem Display.ext_cell {d e : Display} (h : ∀ r c, r < 64 → c < 128 → Display.cell d r c = Display.cell e r c) :
    d = e := by
  ext r hr c hc
  have := h r c hr hc
  simpa [Display.cell, Vector.getElem?_eq_getElem hr, BitVec.getLsbD_eq_getElem hc] using this

/-- Compositing one list of cells after another. -/
theorem Display.composite_append (l m : List (Nat × Nat)) (d : Display) (coll : Bool) :
    Display.composite (l ++ m) d coll =
      Display.composite m (Display.composite l d coll).1 (Display.composite l d coll).2 := by
  induction l generalizing d coll with
  | nil => rfl
  | cons rc l ih => exact ih _ _

/-- What every cell reads after cells are composited: it flips once for each time it is in the list. -/
theorem Display.cell_composite (l : List (Nat × Nat)) (d : Display) (coll : Bool) (r c : Nat)
    (h : ∀ rc ∈ l, rc.1 < 64 ∧ rc.2 < 128) :
    Display.cell (Display.composite l d coll).1 r c = (Display.cell d r c ^^ decide (l.count (r, c) % 2 = 1)) := by
  induction l generalizing d coll with
  | nil => simp [Display.composite]
  | cons rc l ih =>
    have hrc := h rc (by simp)
    rw [Display.composite, ih _ _ fun e he => h e (by simp [he]), Display.cell_toggle d rc r c hrc.1 hrc.2,
      List.count_cons]
    by_cases he : rc = (r, c)
    · subst he
      rcases Nat.mod_two_eq_zero_or_one (l.count (r, c)) with h2 | h2 <;> simp [h2, Nat.add_mod]
    · simp [he]

/-- What every cell reads after a scroll (43_display.md R164). -/
theorem Display.cell_scrollDown (d : Display) (k r c : Nat) (hr : r < 64) :
    Display.cell (Display.scrollDown d k) r c = (decide (k ≤ r) && Display.cell d (r - k) c) := by
  simp only [Display.cell, Display.scrollDown]
  rw [Vector.getElem?_eq_getElem hr]
  simp only [Vector.getElem_ofFn, Option.getD_some]
  split_ifs with h <;> simp [h]

/-- The cells of a logical pixel of the active mode lie in the grid (43_display.md R160). -/
theorem pixelCells_in_grid {ext : Bool} {lx ly : Nat} (hx : lx < modeWidth ext) (hy : ly < modeHeight ext) :
    ∀ rc ∈ pixelCells ext lx ly, rc.1 < 64 ∧ rc.2 < 128 := by
  intro rc h
  cases ext <;> simp only [modeWidth, modeHeight, pixelCells, if_true, if_false, Bool.false_eq_true,
    List.mem_cons, List.not_mem_nil, or_false] at *
  · rcases h with rfl | rfl | rfl | rfl <;> dsimp only <;> omega
  · subst h
    exact ⟨hy, hx⟩

/-- Every cell a sprite toggles lies in the grid (43_display.md R165). -/
theorem State.spriteCells_in_grid (s : State) (cx cy : Byte) (n : Nat) :
    ∀ rc ∈ s.spriteCells cx cy n, rc.1 < 64 ∧ rc.2 < 128 := by
  have hw : 0 < modeWidth s.ext := by cases s.ext <;> decide
  have hh : 0 < modeHeight s.ext := by cases s.ext <;> decide
  intro rc h
  simp only [State.spriteCells, spriteRowCells, List.mem_flatMap] at h
  obtain ⟨row, -, bit, -, h⟩ := h
  unfold spriteBitCells at h
  split_ifs at h with hb
  · exact pixelCells_in_grid (Nat.mod_lt _ hw) (Nat.mod_lt _ hh) rc h
  · cases h

/-- The cells of a logical pixel: the cell itself in extended mode, the 2x2 block in normal mode (43_display.md R160). -/
theorem mem_pixelCells {ext : Bool} {lx ly r c : Nat} :
    (r, c) ∈ pixelCells ext lx ly ↔ if ext then r = ly ∧ c = lx else r / 2 = ly ∧ c / 2 = lx := by
  cases ext
  · simp only [pixelCells, List.mem_cons, List.not_mem_nil, or_false, Bool.false_eq_true, if_false, Prod.mk.injEq]
    omega
  · simp [pixelCells]

/-- A logical pixel has no cell twice. -/
theorem nodup_pixelCells (ext : Bool) (lx ly : Nat) : (pixelCells ext lx ly).Nodup := by
  cases ext <;> simp [pixelCells]

/-- Two logical pixels share no cell. -/
theorem pixelCells_disjoint {ext : Bool} {lx ly lx' ly' : Nat} (h : ¬ (lx = lx' ∧ ly = ly')) :
    (pixelCells ext lx ly).Disjoint (pixelCells ext lx' ly') := by
  rintro ⟨r, c⟩ h1 h2
  rw [mem_pixelCells] at h1 h2
  cases ext <;> simp at h1 h2 <;> omega

/-- The cells of one sprite bit: those of its logical pixel where the bit is set. -/
theorem mem_spriteBitCells {ext : Bool} {cx ly : Nat} {b : Byte} {bit : Nat} {rc : Nat × Nat} :
    rc ∈ spriteBitCells ext cx ly b bit ↔
      b.getLsbD (7 - bit) = true ∧ rc ∈ pixelCells ext ((cx + bit) % modeWidth ext) ly := by
  unfold spriteBitCells
  split_ifs with h <;> simp [h]

/-- The cells a sprite toggles (43_display.md R165). -/
theorem State.mem_spriteCells (s : State) (cx cy : Byte) (n : Nat) (rc : Nat × Nat) :
    rc ∈ s.spriteCells cx cy n ↔ ∃ row bit : Nat, row < n ∧ bit < 8 ∧
      (s.readByte (s.indexAddr row)).getLsbD (7 - bit) = true ∧
      rc ∈ pixelCells s.ext ((cx.toNat + bit) % modeWidth s.ext) ((cy.toNat + row) % modeHeight s.ext) := by
  simp only [State.spriteCells, spriteRowCells, List.mem_flatMap, List.mem_range, mem_spriteBitCells]
  exact ⟨fun ⟨row, hr, bit, hb, h⟩ => ⟨row, bit, hr, hb, h⟩, fun ⟨row, bit, hr, hb, h⟩ => ⟨row, hr, bit, hb, h⟩⟩

/-- One row of a sprite has no cell twice: it is 8 logical pixels wide, the display at least 64. -/
theorem nodup_spriteRowCells (ext : Bool) (cx ly : Nat) (b : Byte) : (spriteRowCells ext cx ly b).Nodup := by
  rw [spriteRowCells, List.nodup_flatMap]
  refine ⟨fun bit _ => ?_, List.nodup_range.imp_of_mem fun {j k} hj hk hne => ?_⟩
  · unfold spriteBitCells
    split_ifs
    · exact nodup_pixelCells _ _ _
    · exact List.nodup_nil
  · intro rc h1 h2
    rw [List.mem_range] at hj hk
    refine pixelCells_disjoint (fun h => hne ?_) (mem_spriteBitCells.1 h1).2 (mem_spriteBitCells.1 h2).2
    cases ext <;> simp [modeWidth] at h <;> omega

/-- A sprite has no cell twice: it has at most 15 rows, the display at least 32 (43_display.md R165). -/
theorem State.nodup_spriteCells (s : State) (cx cy : Byte) (n : Nat) (hn : n ≤ 16) :
    (s.spriteCells cx cy n).Nodup := by
  rw [State.spriteCells, List.nodup_flatMap]
  refine ⟨fun _ _ => nodup_spriteRowCells _ _ _ _, List.nodup_range.imp_of_mem fun {j k} hj hk hne => ?_⟩
  intro rc h1 h2
  simp only [spriteRowCells, List.mem_flatMap] at h1 h2
  obtain ⟨b1, -, h1⟩ := h1
  obtain ⟨b2, -, h2⟩ := h2
  rw [List.mem_range] at hj hk
  refine pixelCells_disjoint (fun h => hne ?_) (mem_spriteBitCells.1 h1).2 (mem_spriteBitCells.1 h2).2
  have h := h.2
  revert h
  cases s.ext <;> simp [modeHeight] <;> omega

/-- The collision of a list of cells without repeats: one of them was foreground (43_display.md R166). -/
theorem Display.composite_collision (l : List (Nat × Nat)) (d : Display) (coll : Bool) (hl : l.Nodup)
    (hg : ∀ rc ∈ l, rc.1 < 64 ∧ rc.2 < 128) :
    (Display.composite l d coll).2 = (coll || l.any fun rc => Display.cell d rc.1 rc.2) := by
  induction l generalizing d coll with
  | nil => simp [Display.composite]
  | cons rc l ih =>
    have hrc := hg rc (by simp)
    obtain ⟨hrl, hl⟩ := List.nodup_cons.1 hl
    rw [Display.composite, ih _ _ hl fun e he => hg e (by simp [he]), List.any_cons, Bool.or_assoc]
    congr 2
    have same : ∀ e ∈ l, Display.cell (Display.toggle d rc) e.1 e.2 = Display.cell d e.1 e.2 := fun e he => by
      have hne : rc ≠ (e.1, e.2) := fun h => hrl (h.symm ▸ he)
      rw [Display.cell_toggle d rc _ _ hrc.1 hrc.2, decide_eq_false hne, Bool.xor_false]
    rw [Bool.eq_iff_iff, List.any_eq_true, List.any_eq_true]
    constructor <;> rintro ⟨e, he, h⟩ <;> exact ⟨e, he, by simpa [same e he] using h⟩

end Sys2Proof.Machine
end

