-- ==== Sys2Proof/Laws/PerInstr.lean ====
section
/-! SUPPORT. Statements made per instruction: the word an instruction encodes to is a legal word of the opcode map, and
matches the row the map gives that instruction (30_encoding.md R74). -/

namespace Sys2Proof.Laws.MatchesOneRow

-- One evaluation after another: side by side, their threads' stacks fill the memory of the check.
set_option Elab.async false

/-- The word an instruction encodes to matches the row of the opcode map that has the instruction's pattern. -/
def Statement (i : Instr) : Prop := ∃ r ∈ opcodeTable, r.pattern = i.pattern ∧ r.Matches (encode i)

/-- A row of the map that has the pattern and matches proves the statement. -/
theorem of_row (i : Instr) (r : OpcodeRow) (hr : r ∈ opcodeTable) (hp : r.pattern = i.pattern)
    (h : r.Matches (encode i)) : Statement i := ⟨r, hr, hp, h⟩

theorem cls : Statement (.cls) :=
  of_row _ ⟨"00E0", 0x00E0, 0xFFFF⟩ (by decide) rfl (by decide)

theorem ret : Statement (.ret) :=
  of_row _ ⟨"00EE", 0x00EE, 0xFFFF⟩ (by decide) rfl (by decide)

theorem low : Statement (.low) :=
  of_row _ ⟨"00FE", 0x00FE, 0xFFFF⟩ (by decide) rfl (by decide)

theorem high : Statement (.high) :=
  of_row _ ⟨"00FF", 0x00FF, 0xFFFF⟩ (by decide) rfl (by decide)

theorem scd (n : Nibble) : Statement (.scd n) :=
  of_row _ ⟨"00Cn", 0x00C0, 0xFFF0⟩ (by decide) rfl (by revert n; decide +kernel)

theorem jp (nnn : Addr) : Statement (.jp nnn) :=
  of_row _ ⟨"1nnn", 0x1000, 0xF000⟩ (by decide) rfl (by
    show (0x1#4 ++ nnn : BitVec 16) &&& (0xF#4 ++ 0x000#12) = 0x1000#16
    simp only [BitVec.and_append, BitVec.and_zero]; rfl)

theorem call (nnn : Addr) : Statement (.call nnn) :=
  of_row _ ⟨"2nnn", 0x2000, 0xF000⟩ (by decide) rfl (by
    show (0x2#4 ++ nnn : BitVec 16) &&& (0xF#4 ++ 0x000#12) = 0x2000#16
    simp only [BitVec.and_append, BitVec.and_zero]; rfl)

theorem seImm (x : Reg) (nn : Byte) : Statement (.seImm x nn) :=
  of_row _ ⟨"3xnn", 0x3000, 0xF000⟩ (by decide) rfl (by
    show (0x3#4 ++ x ++ nn : BitVec 16) &&& (0xF#4 ++ 0x0#4 ++ 0x00#8) = 0x3000#16
    simp only [BitVec.and_append, BitVec.and_zero]; rfl)

theorem sneImm (x : Reg) (nn : Byte) : Statement (.sneImm x nn) :=
  of_row _ ⟨"4xnn", 0x4000, 0xF000⟩ (by decide) rfl (by
    show (0x4#4 ++ x ++ nn : BitVec 16) &&& (0xF#4 ++ 0x0#4 ++ 0x00#8) = 0x4000#16
    simp only [BitVec.and_append, BitVec.and_zero]; rfl)

theorem seReg (x : Reg) (y : Reg) : Statement (.seReg x y) :=
  of_row _ ⟨"5xy0", 0x5000, 0xF00F⟩ (by decide) rfl (by revert x y; decide +kernel)

theorem sneReg (x : Reg) (y : Reg) : Statement (.sneReg x y) :=
  of_row _ ⟨"9xy0", 0x9000, 0xF00F⟩ (by decide) rfl (by revert x y; decide +kernel)

theorem ldImm (x : Reg) (nn : Byte) : Statement (.ldImm x nn) :=
  of_row _ ⟨"6xnn", 0x6000, 0xF000⟩ (by decide) rfl (by
    show (0x6#4 ++ x ++ nn : BitVec 16) &&& (0xF#4 ++ 0x0#4 ++ 0x00#8) = 0x6000#16
    simp only [BitVec.and_append, BitVec.and_zero]; rfl)

theorem addImm (x : Reg) (nn : Byte) : Statement (.addImm x nn) :=
  of_row _ ⟨"7xnn", 0x7000, 0xF000⟩ (by decide) rfl (by
    show (0x7#4 ++ x ++ nn : BitVec 16) &&& (0xF#4 ++ 0x0#4 ++ 0x00#8) = 0x7000#16
    simp only [BitVec.and_append, BitVec.and_zero]; rfl)

theorem ldReg (x : Reg) (y : Reg) : Statement (.ldReg x y) :=
  of_row _ ⟨"8xy0", 0x8000, 0xF00F⟩ (by decide) rfl (by revert x y; decide +kernel)

theorem orReg (x : Reg) (y : Reg) : Statement (.orReg x y) :=
  of_row _ ⟨"8xy1", 0x8001, 0xF00F⟩ (by decide) rfl (by revert x y; decide +kernel)

theorem andReg (x : Reg) (y : Reg) : Statement (.andReg x y) :=
  of_row _ ⟨"8xy2", 0x8002, 0xF00F⟩ (by decide) rfl (by revert x y; decide +kernel)

theorem xorReg (x : Reg) (y : Reg) : Statement (.xorReg x y) :=
  of_row _ ⟨"8xy3", 0x8003, 0xF00F⟩ (by decide) rfl (by revert x y; decide +kernel)

theorem addReg (x : Reg) (y : Reg) : Statement (.addReg x y) :=
  of_row _ ⟨"8xy4", 0x8004, 0xF00F⟩ (by decide) rfl (by revert x y; decide +kernel)

theorem subReg (x : Reg) (y : Reg) : Statement (.subReg x y) :=
  of_row _ ⟨"8xy5", 0x8005, 0xF00F⟩ (by decide) rfl (by revert x y; decide +kernel)

theorem shr (x : Reg) (y : Reg) : Statement (.shr x y) :=
  of_row _ ⟨"8xy6", 0x8006, 0xF00F⟩ (by decide) rfl (by revert x y; decide +kernel)

theorem subnReg (x : Reg) (y : Reg) : Statement (.subnReg x y) :=
  of_row _ ⟨"8xy7", 0x8007, 0xF00F⟩ (by decide) rfl (by revert x y; decide +kernel)

theorem shl (x : Reg) (y : Reg) : Statement (.shl x y) :=
  of_row _ ⟨"8xyE", 0x800E, 0xF00F⟩ (by decide) rfl (by revert x y; decide +kernel)

theorem ldI (nnn : Addr) : Statement (.ldI nnn) :=
  of_row _ ⟨"Annn", 0xA000, 0xF000⟩ (by decide) rfl (by
    show (0xA#4 ++ nnn : BitVec 16) &&& (0xF#4 ++ 0x000#12) = 0xA000#16
    simp only [BitVec.and_append, BitVec.and_zero]; rfl)

theorem jpV0 (nnn : Addr) : Statement (.jpV0 nnn) :=
  of_row _ ⟨"Bnnn", 0xB000, 0xF000⟩ (by decide) rfl (by
    show (0xB#4 ++ nnn : BitVec 16) &&& (0xF#4 ++ 0x000#12) = 0xB000#16
    simp only [BitVec.and_append, BitVec.and_zero]; rfl)

theorem rnd (x : Reg) (nn : Byte) : Statement (.rnd x nn) :=
  of_row _ ⟨"Cxnn", 0xC000, 0xF000⟩ (by decide) rfl (by
    show (0xC#4 ++ x ++ nn : BitVec 16) &&& (0xF#4 ++ 0x0#4 ++ 0x00#8) = 0xC000#16
    simp only [BitVec.and_append, BitVec.and_zero]; rfl)

theorem drw (x : Reg) (y : Reg) (n : Nibble) : Statement (.drw x y n) :=
  of_row _ ⟨"Dxys", 0xD000, 0xF000⟩ (by decide) rfl (by
    show (0xD#4 ++ x ++ y ++ n : BitVec 16) &&& (0xF#4 ++ 0x0#4 ++ 0x0#4 ++ 0x0#4) = 0xD000#16
    simp only [BitVec.and_append, BitVec.and_zero]; rfl)

theorem skp (x : Reg) : Statement (.skp x) :=
  of_row _ ⟨"Ex9E", 0xE09E, 0xF0FF⟩ (by decide) rfl (by revert x; decide +kernel)

theorem sknp (x : Reg) : Statement (.sknp x) :=
  of_row _ ⟨"ExA1", 0xE0A1, 0xF0FF⟩ (by decide) rfl (by revert x; decide +kernel)

theorem ldFromDelay (x : Reg) : Statement (.ldFromDelay x) :=
  of_row _ ⟨"Fx07", 0xF007, 0xF0FF⟩ (by decide) rfl (by revert x; decide +kernel)

theorem waitKey (x : Reg) : Statement (.waitKey x) :=
  of_row _ ⟨"Fx0A", 0xF00A, 0xF0FF⟩ (by decide) rfl (by revert x; decide +kernel)

theorem setDelay (x : Reg) : Statement (.setDelay x) :=
  of_row _ ⟨"Fx15", 0xF015, 0xF0FF⟩ (by decide) rfl (by revert x; decide +kernel)

theorem beep (x : Reg) : Statement (.beep x) :=
  of_row _ ⟨"Fx18", 0xF018, 0xF0FF⟩ (by decide) rfl (by revert x; decide +kernel)

theorem addI (x : Reg) : Statement (.addI x) :=
  of_row _ ⟨"Fx1E", 0xF01E, 0xF0FF⟩ (by decide) rfl (by revert x; decide +kernel)

theorem ldGlyph (x : Reg) : Statement (.ldGlyph x) :=
  of_row _ ⟨"Fx29", 0xF029, 0xF0FF⟩ (by decide) rfl (by revert x; decide +kernel)

theorem storeBcd (x : Reg) : Statement (.storeBcd x) :=
  of_row _ ⟨"Fx33", 0xF033, 0xF0FF⟩ (by decide) rfl (by revert x; decide +kernel)

theorem storeRegs (x : Reg) : Statement (.storeRegs x) :=
  of_row _ ⟨"Fx55", 0xF055, 0xF0FF⟩ (by decide) rfl (by revert x; decide +kernel)

theorem loadRegs (x : Reg) : Statement (.loadRegs x) :=
  of_row _ ⟨"Fx65", 0xF065, 0xF0FF⟩ (by decide) rfl (by revert x; decide +kernel)

end Sys2Proof.Laws.MatchesOneRow
end

