-- ==== Sys2Proof/Laws/Encoding.lean ====
section
/-! SUPPORT. The fields of a word laid out in each format of 30_encoding.md R71: one lemma per field and format. -/

namespace Sys2Proof

/-! ### Format FA: `oooo aaaa aaaa aaaa` -/

@[simp] theorem fieldOp_address (o : Nibble) (a : Addr) : fieldOp (o ++ a) = o :=
  BitVec.extractLsb'_append_eq_left
@[simp] theorem fieldNNN_address (o : Nibble) (a : Addr) : fieldNNN (o ++ a) = a :=
  BitVec.extractLsb'_append_eq_right

/-! ### Format FXI: `oooo xxxx iiii iiii` (and FX, whose low byte is fixed) -/

@[simp] theorem fieldOp_immediate (o : Nibble) (x : Reg) (b : Byte) : fieldOp (o ++ x ++ b) = o :=
  (BitVec.extractLsb'_append_eq_ite (xhi := o ++ x) (xlo := b)).trans BitVec.extractLsb'_append_eq_left
@[simp] theorem fieldX_immediate (o : Nibble) (x : Reg) (b : Byte) : fieldX (o ++ x ++ b) = x :=
  (BitVec.extractLsb'_append_eq_ite (xhi := o ++ x) (xlo := b)).trans BitVec.extractLsb'_append_eq_right
@[simp] theorem fieldNN_immediate (o : Nibble) (x : Reg) (b : Byte) : fieldNN (o ++ x ++ b) = b :=
  BitVec.extractLsb'_append_eq_right

/-! ### Format FXY: `oooo xxxx yyyy ffff` (and FXYS) -/

@[simp] theorem fieldOp_registers (o : Nibble) (x y : Reg) (n : Nibble) : fieldOp (o ++ x ++ y ++ n) = o :=
  (BitVec.extractLsb'_append_eq_ite (xhi := o ++ x ++ y) (xlo := n)).trans
    ((BitVec.extractLsb'_append_eq_ite (xhi := o ++ x) (xlo := y)).trans BitVec.extractLsb'_append_eq_left)
@[simp] theorem fieldX_registers (o : Nibble) (x y : Reg) (n : Nibble) : fieldX (o ++ x ++ y ++ n) = x :=
  (BitVec.extractLsb'_append_eq_ite (xhi := o ++ x ++ y) (xlo := n)).trans
    ((BitVec.extractLsb'_append_eq_ite (xhi := o ++ x) (xlo := y)).trans BitVec.extractLsb'_append_eq_right)
@[simp] theorem fieldY_registers (o : Nibble) (x y : Reg) (n : Nibble) : fieldY (o ++ x ++ y ++ n) = y :=
  (BitVec.extractLsb'_append_eq_ite (xhi := o ++ x ++ y) (xlo := n)).trans BitVec.extractLsb'_append_eq_right
@[simp] theorem fieldN_registers (o : Nibble) (x y : Reg) (n : Nibble) : fieldN (o ++ x ++ y ++ n) = n :=
  BitVec.extractLsb'_append_eq_right

/-! ### A word is its fields, in each format -/

/-- Format FA. -/
theorem word_address (w : Word) : fieldOp w ++ fieldNNN w = w :=
  BitVec.eq_of_toNat_eq (by
    have := w.isLt
    simp only [fieldOp, fieldNNN, BitVec.toNat_append, BitVec.extractLsb'_toNat]
    rw [Nat.shiftRight_eq_div_pow, Nat.shiftRight_eq_div_pow, ← Nat.shiftLeft_add_eq_or_of_lt (by omega),
      Nat.shiftLeft_eq]
    omega)

/-- An address field is its register field and its byte. -/
theorem address_immediate (w : Word) : fieldX w ++ fieldNN w = fieldNNN w :=
  BitVec.eq_of_toNat_eq (by
    have := w.isLt
    simp only [fieldX, fieldNN, fieldNNN, BitVec.toNat_append, BitVec.extractLsb'_toNat]
    rw [Nat.shiftRight_eq_div_pow, Nat.shiftRight_eq_div_pow, ← Nat.shiftLeft_add_eq_or_of_lt (by omega),
      Nat.shiftLeft_eq]
    omega)

/-- A byte field is its two nibbles. -/
theorem immediate_registers (w : Word) : fieldY w ++ fieldN w = fieldNN w :=
  BitVec.eq_of_toNat_eq (by
    have := w.isLt
    simp only [fieldY, fieldN, fieldNN, BitVec.toNat_append, BitVec.extractLsb'_toNat]
    rw [Nat.shiftRight_eq_div_pow, Nat.shiftRight_eq_div_pow, ← Nat.shiftLeft_add_eq_or_of_lt (by omega),
      Nat.shiftLeft_eq]
    omega)

/-- Format FXI. -/
theorem word_immediate (w : Word) : fieldOp w ++ fieldX w ++ fieldNN w = w := by
  refine Eq.trans ?_ (word_address w)
  rw [← address_immediate]
  exact (BitVec.append_assoc (x₁ := fieldOp w) (x₂ := fieldX w) (x₃ := fieldNN w)).trans rfl

/-- Formats FXY and FXYS. -/
theorem word_registers (w : Word) : fieldOp w ++ fieldX w ++ fieldY w ++ fieldN w = w := by
  refine Eq.trans ?_ (word_immediate w)
  rw [← immediate_registers]
  exact (BitVec.append_assoc (x₁ := fieldOp w ++ fieldX w) (x₂ := fieldY w) (x₃ := fieldN w)).trans rfl

/-- A word is its two bytes, the opcode byte the high one. -/
@[simp] theorem wordOfBytes_bytes (w : Word) : wordOfBytes (opcodeByte w) (fieldNN w) = w := by
  refine BitVec.eq_of_toNat_eq ?_
  have := w.isLt
  simp only [wordOfBytes, opcodeByte, fieldNN, BitVec.toNat_append, BitVec.extractLsb'_toNat]
  rw [Nat.shiftRight_eq_div_pow, Nat.shiftRight_eq_div_pow, ← Nat.shiftLeft_add_eq_or_of_lt (by omega),
    Nat.shiftLeft_eq]
  omega

end Sys2Proof
end

