-- ==== Sys2Proof/Laws/Frames.lean ====
section
/-! SUPPORT. The frames of the shared updates, the results that carry a flag, and what one step can do, each said once. -/

namespace Sys2Proof.Machine

/-- A register write, as a frame. -/
theorem State.writesReg_setReg (s : State) (x : Reg) (b : Byte) : s.writesReg (s.setReg x b) x b :=
  ⟨s.reg_setReg_same x b, fun _ hz => s.reg_setReg_other b hz, fun _ => rfl, rfl⟩

/-- A result and its flag, as a frame. -/
theorem State.writesRegFlag_setRegFlag (s : State) (x : Reg) (b f : Byte) :
    s.writesRegFlag (s.setRegFlag x (b, f)) x b f :=
  ⟨State.reg_setReg_same _ _ _,
    fun h => (State.reg_setReg_other _ _ h).trans (State.reg_setReg_same _ _ _),
    fun _ hx hf => (State.reg_setReg_other _ _ hf).trans (State.reg_setReg_other _ _ hx),
    fun _ => rfl, rfl⟩

/-- A write of the pc, as a frame. -/
theorem State.writesPc_setPc (s : State) (a : Addr) : s.writesPc (s.setPc a) a := ⟨fun _ => rfl, rfl⟩

/-- A write of the index register, as a frame. -/
theorem State.writesI_setI (s : State) (a : Addr) : s.writesI (s.setI a) a := ⟨fun _ => rfl, rfl⟩

/-- A skip is a write of the pc. -/
theorem State.skipIf_eq (s : State) (c : Bool) : s.skipIf c = s.setPc (if c then s.pc + 2 else s.pc) := rfl

/-- Writing a register with what it holds changes nothing. -/
theorem State.setReg_self (s : State) (x : Reg) : s.setReg x (s.reg x) = s := by
  have hv : (s.setReg x (s.reg x)).v = s.v := State.v_ext fun z => by
    by_cases h : z = x
    · subst h
      exact s.reg_setReg_same z _
    · exact s.reg_setReg_other _ h
  rw [State.setReg_eq, hv]

/-- Addition narrows to the machine's sum, with its carry (41_alu.md R127). -/
theorem addCarry_eq (a b : Byte) : addCarry a b = (a + b, if 256 ≤ a.toNat + b.toNat then 1 else 0) := by
  refine Prod.ext (BitVec.eq_of_toNat_eq ?_) ?_
  · simp [addCarry]
  · simp [addCarry, flagByte]

/-- Subtraction narrows to the machine's difference, with its underflow (41_alu.md R128). -/
theorem subBorrow_eq (a b : Byte) : subBorrow a b = (a - b, if a < b then 1 else 0) := by
  refine Prod.ext (BitVec.eq_of_toNat_eq ?_) ?_
  · simp only [subBorrow, BitVec.toNat_ofInt, BitVec.toNat_sub]
    omega
  · simp [subBorrow, flagByte, BitVec.lt_def]

/-- The index-relative address of a register's number. -/
theorem State.indexAddr_reg (s : State) (k : Reg) : s.indexAddr k.toNat = s.i + k.setWidth 12 := by
  rw [State.indexAddr, BitVec.ofNat_toNat]

/-- A call with room on the stack (40_control_flow.md R102). -/
theorem execCall_of_lt (nnn : Addr) (s : State) (h : s.sp.val < 16) :
    execCall nnn s = .next { s with stack := s.stack.set s.sp.val (s.pc.setWidth 16) h, sp := ⟨s.sp.val + 1, by omega⟩,
                                    pc := nnn } := by
  rw [execCall, State.push_of_lt s s.pc h]
  rfl

/-- A call on a full stack (40_control_flow.md R102). -/
theorem execCall_of_full (nnn : Addr) (s : State) (h : s.sp.val = 16) :
    execCall nnn s = .next (s.raise .stackOverflow (encode (.call nnn))) := by
  rw [execCall, State.push_of_full s s.pc h]

/-- A return that finds an entry (40_control_flow.md R100). -/
theorem execRet_of_pos (s : State) (h : s.sp.val ≠ 0) :
    execRet s = .next { s with sp := ⟨s.sp.val - 1, by omega⟩, pc := (s.stack[s.sp.val - 1]'(by omega)).setWidth 12 } := by
  rw [execRet, State.pop_of_pos s h]
  rfl

/-- A return on an empty stack (40_control_flow.md R100). -/
theorem execRet_of_empty (s : State) (h : s.sp.val = 0) :
    execRet s = .next (s.raise .stackUnderflow (encode .ret)) := by
  rw [execRet, State.pop_of_empty s h]

/-- What a step that answers a next state has done: the core was not halted, and it ran the instruction it decoded or
raised UNRECOGNIZED_OPCODE (30_encoding.md R75). -/
theorem step_cases {s t : State} (h : step s = .next t) :
    s.halted = false ∧
      ((∃ i, s.decoded = .ok i ∧ exec i s.begin = .next t) ∨
        ((∃ e, s.decoded = .error e) ∧ t = s.begin.raiseIllegal s.fetch.1 s.fetch.2)) := by
  unfold step at h
  split_ifs at h with hh
  refine ⟨by simpa using hh, ?_⟩
  split at h
  · next i hd => exact .inl ⟨i, hd, h⟩
  · next e hd => exact .inr ⟨⟨e, hd⟩, by simpa using h.symm⟩

end Sys2Proof.Machine
end

