-- ==== Sys2Proof/Tests/Slice0.lean ====
section
/-! SUPPORT. Tests: words written out from the spec's encodings, one small step or two per instruction with results from
95_test_vectors.md (named after the vector), and for each obligation with hypotheses a concrete state that meets them. -/

namespace Sys2Proof.Tests

-- The many small evaluations one after another: side by side, their threads' stacks fill the memory of the check.
set_option Elab.async false

open Sys2Proof.Machine

/-! ### Helpers -/

/-- The state a meaning starts from at power-on: the pc past an instruction at 0x200. -/
def past : State := State.reset.setPc 0x202

/-- An outcome is a next state that passes a check. -/
def gives (o : Result) (check : State → Bool) : Bool :=
  match o with
  | .next t => check t
  | _ => false

/-- Power-on with a word placed at 0x200. -/
def placed (w : Nat) : State := State.reset.withFetchWord 16 w

/-- A host that answers every query by one set of keys: bit `k` for key `k`. -/
def pressing (bits : BitVec 256) (s : State) : State :=
  { s with env := { s.env with keys := Vector.replicate 16 bits } }

/-- A delay timer and the step's clock sample. -/
def timed (dval : Byte) (dstamp now : Rat) : State :=
  { past with dval := dval, dstamp := dstamp, env := { past.env with now := now } }

/-- A display with the listed cells foreground, and the mode. -/
def shown (ext : Bool) (lit : List (Nat × Nat)) : State :=
  { past with ext := ext, cells := lit.foldl Display.toggle (Vector.replicate 64 0) }

/-- All the cells listed are foreground. -/
def lit (s : State) (l : List (Nat × Nat)) : Bool := l.all fun rc => Display.cell s.cells rc.1 rc.2

/-- The cells listed are foreground, and no other. -/
def litOnly (s : State) (l : List (Nat × Nat)) : Bool := s.cells == l.foldl Display.toggle (Vector.replicate 64 0)

/-- A call stack with a number of entries in use, the first two holding 0x206 and 0x208. -/
def stacked (sp : Fin 17) : State :=
  { past with sp := sp, stack := (past.stack.set 0 0x206).set 1 0x208 }

/-! ### Well-formedness: one illegal word of each group of R76, refused by the table and by the decoder -/

theorem test_wf_refuses_zero_family :
    legalWord 0x0000 = false ∧ legalWord 0x00FD = false ∧ legalWord 0x00E1 = false ∧ legalWord 0x0123 = false ∧
    decodeWord 0x0123 = .error .zeroFamily := by decide
theorem test_wf_refuses_skip_nibble :
    legalWord 0x5121 = false ∧ legalWord 0x912F = false ∧ decodeWord 0x912F = .error .skipNibble := by decide
theorem test_wf_refuses_alu_nibble :
    legalWord 0x8008 = false ∧ legalWord 0x800F = false ∧ decodeWord 0x800F = .error .aluNibble := by decide
theorem test_wf_refuses_key_byte :
    legalWord 0xE09F = false ∧ legalWord 0xE000 = false ∧ decodeWord 0xE09F = .error .keyByte := by decide
theorem test_wf_refuses_misc_byte :
    legalWord 0xF000 = false ∧ legalWord 0xF0FF = false ∧ decodeWord 0xF000 = .error .miscByte := by decide

/-! ### Decoding: a word for every row, written out from 30_encoding.md R71 and R74 -/

theorem test_decode_zero_family :
    decodeWord 0b0000000011100000#16 = .ok .cls ∧ decodeWord 0b0000000011101110#16 = .ok .ret ∧
    decodeWord 0b0000000011111110#16 = .ok .low ∧ decodeWord 0b0000000011111111#16 = .ok .high ∧
    decodeWord 0b0000000011000010#16 = .ok (.scd 2) := by decide
theorem test_decode_control_flow :
    decodeWord 0b0001001000110100#16 = .ok (.jp 0x234) ∧ decodeWord 0b0010001000001010#16 = .ok (.call 0x20A) ∧
    decodeWord 0b0011001101000010#16 = .ok (.seImm 3 0x42) ∧ decodeWord 0b0100001101000010#16 = .ok (.sneImm 3 0x42) ∧
    decodeWord 0b0101000100100000#16 = .ok (.seReg 1 2) ∧ decodeWord 0b1001000100100000#16 = .ok (.sneReg 1 2) ∧
    decodeWord 0b1011111111111000#16 = .ok (.jpV0 0xFF8) := by decide
theorem test_decode_immediate :
    decodeWord 0b0110101001011100#16 = .ok (.ldImm 0xA 0x5C) ∧ decodeWord 0b0111001000000001#16 = .ok (.addImm 2 1) ∧
    decodeWord 0b1100001100001111#16 = .ok (.rnd 3 0x0F) := by decide
theorem test_decode_alu :
    decodeWord 0b1000000100100000#16 = .ok (.ldReg 1 2) ∧ decodeWord 0b1000000100100001#16 = .ok (.orReg 1 2) ∧
    decodeWord 0b1000000100100010#16 = .ok (.andReg 1 2) ∧ decodeWord 0b1000000100100011#16 = .ok (.xorReg 1 2) ∧
    decodeWord 0b1000000100100100#16 = .ok (.addReg 1 2) ∧ decodeWord 0b1000000100100101#16 = .ok (.subReg 1 2) ∧
    decodeWord 0b1000001110100110#16 = .ok (.shr 3 0xA) ∧ decodeWord 0b1000000100100111#16 = .ok (.subnReg 1 2) ∧
    decodeWord 0b1000010000001110#16 = .ok (.shl 4 0) := by decide
theorem test_decode_index_and_draw :
    decodeWord 0b1010001100000000#16 = .ok (.ldI 0x300) ∧ decodeWord 0b1101000000010010#16 = .ok (.drw 0 1 2) := by decide
theorem test_decode_keys :
    decodeWord 0b1110000110011110#16 = .ok (.skp 1) ∧ decodeWord 0b1110000110100001#16 = .ok (.sknp 1) := by decide
theorem test_decode_misc :
    decodeWord 0b1111010100000111#16 = .ok (.ldFromDelay 5) ∧ decodeWord 0b1111001100001010#16 = .ok (.waitKey 3) ∧
    decodeWord 0b1111010100010101#16 = .ok (.setDelay 5) ∧ decodeWord 0b1111001100011000#16 = .ok (.beep 3) ∧
    decodeWord 0b1111001000011110#16 = .ok (.addI 2) ∧ decodeWord 0b1111000000101001#16 = .ok (.ldGlyph 0) ∧
    decodeWord 0b1111101000110011#16 = .ok (.storeBcd 0xA) ∧ decodeWord 0b1111001101010101#16 = .ok (.storeRegs 3) ∧
    decodeWord 0b1111001001100101#16 = .ok (.loadRegs 2) := by decide
/-- 20_memory.md R52: the byte at the lower address is the opcode byte. -/
theorem test_decode_byte_order : decode 0x60 0x05 = .ok (.ldImm 0 0x05) ∧ decodeTableWord 16 0x6005 = some (.ldImm 0 5) := by
  decide

/-! ### The step cycle and the fault -/

/-- CF21: the fetch wraps at the top of memory, and an odd pc is legal. -/
theorem test_step_fetch_wraps :
    gives (step (((State.reset.writeByte 0xFFF 0x60).writeByte 0x000 0x07).setPc 0xFFF))
      (fun t => t.reg 0 == 0x07 && t.pc == 0x001) = true := by decide
/-- W8, its first step. -/
theorem test_step_runs : gives (step (placed 0x6005)) (fun t => t.reg 0 == 5 && t.pc == 0x202) = true := by decide
/-- X1. -/
theorem test_step_illegal_word :
    gives (step (State.reset.setPc 0x204)) (fun t => t.halted && t.faultCause == .unrecognizedOpcode &&
      t.faultPc == 0x204 && t.faultBytes == 0x0000 && t.pc == 0x206 && t.status == .fault) = true := by decide
/-- X8. -/
theorem test_step_halted :
    step (State.reset.raise .stackOverflow 0x2300) = .fault (.illegalInstruction .stackOverflow 0x1FE 0x2300) := rfl
/-- X9. -/
theorem test_reset_clears_halt :
    gives ((State.reset.raise .stackOverflow 0x2300).command .reset)
      (fun t => !t.halted && t.status == .ok && t.pc == 0x200) = true := by decide
/-- R56: the low nibble of every font byte is 0, whatever the font. -/
theorem test_font_byte_low_nibble : ∀ row : Nibble, (glyphByte row).setWidth 4 = 0#4 ∧ (glyphByte row) >>> 4 = row.setWidth 8 := by
  decide
/-- 20_memory.md R57: glyphs 1 and A. -/
theorem test_default_font : (Font.bytes defaultFont).toList.take 10 =
      [0xF0, 0x90, 0x90, 0x90, 0xF0, 0x20, 0x60, 0x20, 0x20, 0x70] ∧
    ((Font.bytes defaultFont).toList.drop 50).take 5 = [0xF0, 0x90, 0xF0, 0x90, 0x90] := by decide +kernel
/-- R5: a clock that counts tenths of a second shows 1/10 at 0.19, and an unrestricted one the time itself. -/
theorem test_clock_resolution :
    atResolution (some (1 / 10)) (19 / 100) = 1 / 10 ∧ atResolution none (19 / 100) = 19 / 100 := by decide +kernel
/-- R222. -/
theorem test_load_image :
    gives (State.reset.command (.load defaultFont [0x60, 0x05]))
      (fun t => t.readByte 0x000 == 0xF0 && t.readByte 0x04F == 0x80 && t.readByte 0x200 == 0x60 &&
        t.readByte 0x201 == 0x05 && t.readByte 0x202 == 0 && t.pc == 0x200) = true := by decide +kernel

/-! ### Control flow -/

theorem test_ret_CF1 :
    gives (exec .ret (stacked 1)) (fun t => t.pc == 0x206 && t.sp == 0 && t.stack[0] == 0x206) = true := by decide
theorem test_ret_CF2 :
    gives (exec .ret past) (fun t => t.halted && t.faultCause.code == 3 && t.faultPc == 0x200 && t.faultBytes == 0x00EE &&
      t.pc == 0x202 && t.status == .fault) = true := by decide
theorem test_jp_CF3 : gives (exec (.jp 0x234) past) (fun t => t.pc == 0x234) = true := by decide
theorem test_call_CF5 :
    gives (exec (.call 0x300) (past.setPc 0x000)) (fun t => t.stack[0] == 0x000 && t.sp == 1 && t.pc == 0x300) = true := by
  decide
theorem test_call_CF6 :
    gives (exec (.call 0x300) (stacked 16)) (fun t => t.halted && t.faultCause.code == 2 && t.faultPc == 0x200 &&
      t.pc == 0x202 && t.sp == 16 && t.stack == (stacked 16).stack) = true := by decide
theorem test_seImm_CF8 : gives (exec (.seImm 3 0x42) (past.setReg 3 0x41)) (fun t => t.pc == 0x202) = true := by decide
theorem test_seImm_CF9 : gives (exec (.seImm 0 0) (past.setPc 0x000)) (fun t => t.pc == 0x002) = true := by decide
theorem test_sneImm_CF10 : gives (exec (.sneImm 3 0x42) (past.setReg 3 0x41)) (fun t => t.pc == 0x204) = true := by decide
theorem test_sneImm_CF11 : gives (exec (.sneImm 3 0x42) (past.setReg 3 0x42)) (fun t => t.pc == 0x202) = true := by decide
theorem test_seReg_CF12 :
    gives (exec (.seReg 1 2) ((past.setReg 1 7).setReg 2 7)) (fun t => t.pc == 0x204) = true := by decide
theorem test_sneReg_CF15 :
    gives (exec (.sneReg 1 2) ((past.setReg 1 7).setReg 2 8)) (fun t => t.pc == 0x204) = true := by decide
theorem test_sneReg_CF16 : gives (exec (.sneReg 1 1) (past.setReg 1 7)) (fun t => t.pc == 0x202) = true := by decide
theorem test_jpV0_CF18 : gives (exec (.jpV0 0xFF8) (past.setReg 0 0x10)) (fun t => t.pc == 0x008) = true := by decide
theorem test_jpV0_CF19 : gives (exec (.jpV0 0xFFF) (past.setReg 0 0xFF)) (fun t => t.pc == 0x0FE) = true := by decide

/-! ### Register and arithmetic instructions -/

theorem test_ldImm_A1 : gives (exec (.ldImm 0xA 0x5C) past) (fun t => t.reg 0xA == 0x5C) = true := by decide
theorem test_addImm_A2 :
    gives (exec (.addImm 2 1) ((past.setReg 2 0xFF).setReg 15 5)) (fun t => t.reg 2 == 0 && t.reg 15 == 5) = true := by
  decide
theorem test_ldReg_A25 :
    gives (exec (.ldReg 0 1) ((past.setReg 0 0x12).setReg 1 0x34)) (fun t => t.reg 0 == 0x34) = true := by decide
theorem test_orReg_A22 :
    gives (exec (.orReg 0 1) (((past.setReg 0 0x12).setReg 1 0x34).setReg 15 1))
      (fun t => t.reg 0 == 0x36 && t.reg 15 == 1) = true := by decide
theorem test_andReg_A23 :
    gives (exec (.andReg 0 1) ((past.setReg 0 0x12).setReg 1 0x34)) (fun t => t.reg 0 == 0x10) = true := by decide
theorem test_xorReg_A24 :
    gives (exec (.xorReg 0 1) ((past.setReg 0 0x12).setReg 1 0x34)) (fun t => t.reg 0 == 0x26) = true := by decide
theorem test_addReg_A3 :
    gives (exec (.addReg 0 1) ((past.setReg 0 0xF0).setReg 1 0x20)) (fun t => t.reg 0 == 0x10 && t.reg 15 == 1) = true := by
  decide
theorem test_addReg_A5 :
    gives (exec (.addReg 15 1) ((past.setReg 15 0x80).setReg 1 0x80)) (fun t => t.reg 15 == 1) = true := by decide
theorem test_subReg_A6 :
    gives (exec (.subReg 0 1) ((past.setReg 0 3).setReg 1 5)) (fun t => t.reg 0 == 0xFE && t.reg 15 == 1) = true := by
  decide
theorem test_subReg_A8 :
    gives (exec (.subReg 15 1) ((past.setReg 15 2).setReg 1 3)) (fun t => t.reg 15 == 1) = true := by decide
theorem test_shr_A10 :
    gives (exec (.shr 0 9) ((past.setReg 0 0x84).setReg 9 0xFF)) (fun t => t.reg 0 == 0x42 && t.reg 15 == 0) = true := by
  decide
theorem test_shr_A11 : gives (exec (.shr 15 0) (past.setReg 15 3)) (fun t => t.reg 15 == 1) = true := by decide
theorem test_subnReg_A12 :
    gives (exec (.subnReg 1 2) ((past.setReg 1 5).setReg 2 3)) (fun t => t.reg 1 == 0xFE && t.reg 15 == 1) = true := by
  decide
theorem test_subnReg_A14 :
    gives (exec (.subnReg 1 15) ((past.setReg 1 3).setReg 15 2)) (fun t => t.reg 1 == 0xFF && t.reg 15 == 1) = true := by
  decide
theorem test_shl_A15 :
    gives (exec (.shl 0 1) (past.setReg 0 0xC1)) (fun t => t.reg 0 == 0x82 && t.reg 15 == 1) = true := by decide
theorem test_shl_A16 :
    gives (exec (.shl 0 1) (past.setReg 0 0x7F)) (fun t => t.reg 0 == 0xFE && t.reg 15 == 0) = true := by decide
theorem test_rnd_A26 :
    gives (exec (.rnd 0 0x0F) { past with env := { past.env with rand8 := 0xA7 } }) (fun t => t.reg 0 == 7) = true := by
  decide
/-- A27: for any random byte. -/
theorem test_rnd_A27 (s : State) : gives (exec (.rnd 0 0) s) (fun t => t.reg 0 == 0) = true := by
  simp [exec, execRnd, gives, State.reg, State.setReg]

/-! ### Index register and memory -/

theorem test_ldI_M1 : gives (exec (.ldI 0x300) past) (fun t => t.i == 0x300) = true := by decide
theorem test_addI_M2 :
    gives (exec (.addI 1) (((past.setI 0xFFF).setReg 1 1).setReg 15 9)) (fun t => t.i == 0x000 && t.reg 15 == 9) = true := by
  decide
theorem test_ldGlyph_M6 : gives (exec (.ldGlyph 0) (past.setReg 0 0xFF)) (fun t => t.i == 0x4FB) = true := by decide
theorem test_storeBcd_W3 :
    gives (exec (.storeBcd 0) ((past.setI 0x300).setReg 0 234)) (fun t => t.readByte 0x300 == 2 &&
      t.readByte 0x301 == 3 && t.readByte 0x302 == 4 && t.i == 0x300) = true := by decide
theorem test_storeBcd_M9 :
    gives (exec (.storeBcd 0) (((past.setI 0xFFE).setReg 0 7).writeByte 0xFFE 0x55)) (fun t => t.readByte 0xFFE == 0 &&
      t.readByte 0xFFF == 0 && t.readByte 0x000 == 7 && t.mem == [(0, 7)]) = true := by decide
theorem test_storeRegs_M11 :
    gives (exec (.storeRegs 3) ((((past.setI 0xFFE).setReg 0 1).setReg 1 2).setReg 2 3 |>.setReg 3 4))
      (fun t => t.mem == [(0x000, 3), (0x001, 4), (0xFFE, 1), (0xFFF, 2)] && t.i == 0x002) = true := by decide
theorem test_storeRegs_M10 :
    gives (exec (.storeRegs 0) ((past.setI 0x300).setReg 0 0x5A)) (fun t => t.mem == [(0x300, 0x5A)] && t.i == 0x301) =
      true := by decide
theorem test_loadRegs_M13 :
    gives (exec (.loadRegs 15) (((past.writeByte 0x300 0xF0).writeByte 0x30F 0xFF).setI 0x300))
      (fun t => t.reg 0 == 0xF0 && t.reg 1 == 0 && t.reg 15 == 0xFF && t.i == 0x310) = true := by decide
theorem test_loadRegs_M14 :
    gives (exec (.loadRegs 0) (((past.writeByte 0x300 0x99).setI 0x300).setReg 1 7))
      (fun t => t.reg 0 == 0x99 && t.reg 1 == 7 && t.i == 0x301) = true := by decide

/-! ### Display -/

theorem test_cls_D1 :
    gives (exec .cls ((shown true [(0, 0), (63, 127)]).setReg 15 9)) (fun t => litOnly t [] && t.ext && t.reg 15 == 9) =
      true := by decide +kernel
theorem test_high_D2 : gives (exec .high (shown false [(0, 5)])) (fun t => t.ext && lit t [(0, 5)]) = true := by
  decide +kernel
theorem test_low_D3 : gives (exec .low (shown true [(0, 5)])) (fun t => !t.ext && lit t [(0, 5)]) = true := by
  decide +kernel
theorem test_scd_D4 :
    gives (exec (.scd 1) (shown false [(0, 0), (1, 0)])) (fun t => litOnly t [(2, 0), (3, 0)]) = true := by
  decide +kernel
theorem test_scd_D6 : gives (exec (.scd 4) (shown true [(60, 5)])) (fun t => litOnly t []) = true := by decide +kernel
theorem test_drw_D9 :
    gives (exec (.drw 0 1 1) (((((shown true []).setReg 0 0x7F).setReg 1 0x3F).setI 0x300).writeByte 0x300 0xC0))
      (fun t => litOnly t [(63, 127), (63, 0)] && t.reg 15 == 0) = true := by decide +kernel
theorem test_drw_D12 :
    gives (exec (.drw 0 1 1) ((((shown false [(2, 0)]).setReg 1 1).setI 0x300).writeByte 0x300 0x80))
      (fun t => litOnly t [(2, 1), (3, 0), (3, 1)] && t.reg 15 == 1) = true := by decide +kernel

/-! ### Timer, sound and keys -/

theorem test_ldFromDelay_T1 : gives (exec (.ldFromDelay 5) (timed 10 1 (21 / 20))) (fun t => t.reg 5 == 7) = true := by
  decide +kernel
theorem test_ldFromDelay_T4 : gives (exec (.ldFromDelay 5) (timed 10 0 100)) (fun t => t.reg 5 == 0) = true := by
  decide +kernel
theorem test_setDelay_T6 :
    gives (exec (.setDelay 5) ((timed 0 0 2).setReg 5 0x3C))
      (fun t => t.dval == 0x3C && t.dstamp == 2 && t.delayNow (5 / 2) == 30) = true := by decide +kernel
theorem test_beep_T8 : gives (exec (.beep 3) past) (fun t => t.env.calls == [.beep] && t.pc == past.pc) = true := by decide
theorem test_skp_T9 :
    gives (exec (.skp 1) (pressing 0x20 (past.setReg 1 5))) (fun t => t.pc == 0x204 && t.env.calls == [.keyTest 5 true]) =
      true := by decide
theorem test_skp_T13 : gives (exec (.skp 1) (pressing (1 <<< 32) (past.setReg 1 0x20))) (fun t => t.pc == 0x204) = true := by
  decide
theorem test_sknp_T11 : gives (exec (.sknp 1) (pressing 0 (past.setReg 1 5))) (fun t => t.pc == 0x204) = true := by decide
theorem test_sknp_T12 : gives (exec (.sknp 1) (pressing 0x20 (past.setReg 1 5))) (fun t => t.pc == 0x202) = true := by
  decide
theorem test_waitKey_T14 :
    gives (exec (.waitKey 0) (pressing 0x88 past)) (fun t => t.reg 0 == 3 && t.pc == 0x202 && t.status == .ok &&
      t.env.calls == [.keyTest 0 false, .keyTest 1 false, .keyTest 2 false, .keyTest 3 true]) = true := by decide
theorem test_waitKey_T15 :
    gives (exec (.waitKey 0) (pressing 0 (past.setReg 0 9))) (fun t => t.reg 0 == 9 && t.pc == 0x200 &&
      t.status == .waiting && t.env.calls.length == 16) = true := by decide

/-! ### Witnesses: for each obligation with hypotheses, states that meet them, at the ends of their ranges -/

theorem witness_LegalWordIsTheEncoding : decodeWord 0xFFFF = .error .miscByte ∧ decodeWord 0xFF65 = .ok (.loadRegs 15) := by
  decide
theorem witness_DecoderFollowsTheOpcodeMap :
    opcodeTable.length = 37 ∧ decodeWord 0x00CF = .ok (.scd 15) ∧ ⟨"00Cn", 0x00C0, 0xFFF0⟩ ∈ opcodeTable ∧
    OpcodeRow.Matches ⟨"00Cn", 0x00C0, 0xFFF0⟩ 0x00CF := by decide
theorem witness_IllegalWordsAreTheFiveGroups :
    State.reset.halted = false ∧ ∀ r ∈ opcodeTable, ¬ r.Matches State.reset.wordAtPc := by decide
theorem witness_StepRunsTheDecodedInstruction :
    (placed 0x1FFF).halted = false ∧
    decode ((placed 0x1FFF).readByte (placed 0x1FFF).pc) ((placed 0x1FFF).readByte ((placed 0x1FFF).pc + 1)) =
      .ok (.jp 0xFFF) := by decide
theorem witness_RaiseSetsTheLatch_word : State.reset.halted = false ∧ ∀ i, State.reset.decoded ≠ .ok i := by
  refine ⟨rfl, fun i h => ?_⟩
  rw [show State.reset.decoded = .error .zeroFamily by decide] at h
  cases h
theorem witness_RaiseSetsTheLatch_call :
    { placed 0x2300 with sp := 16 }.halted = false ∧ { placed 0x2300 with sp := 16 }.decoded = .ok (.call 0x300) := by decide
theorem witness_RaiseSetsTheLatch_ret : (placed 0x00EE).decoded = .ok .ret ∧ (placed 0x00EE).sp.val = 0 := by decide
/-- Also for `EveryInstructionCompletes` and `PcAfterEveryStep`. -/
theorem witness_OnlyThreeConditionsFault :
    (placed 0x3000).halted = false ∧ (∃ t, step (placed 0x3000) = .next t) ∧
    (placed 0x3000).decoded = .ok (.seImm 0 0) := ⟨by decide, ⟨_, rfl⟩, by decide⟩
theorem witness_PcAfterEveryStep_wraps :
    gives (step (((State.reset.writeByte 0xFFE 0x30)).setPc 0xFFE)) (fun t => t.pc == 0x002) = true := by decide
/-- A core halted with no run in progress, where a LOAD answers, and one halted by a step, where it does not. -/
theorem witness_HaltedUntilReset :
    (past.raise .stackUnderflow 0x00EE).halted = true ∧
    (∃ t, (past.raise .stackUnderflow 0x00EE).command (.load defaultFont []) = .next t) ∧
    gives (step State.reset) (fun t => t.halted && t.env.inRun) = true := ⟨rfl, ⟨_, rfl⟩, by decide⟩
theorem witness_StepKeepsTheInvariant : (placed 0xF055).Inv ∧ ∃ t, step (placed 0xF055) = .next t :=
  ⟨⟨by decide, by decide, ⟨by decide +kernel, by decide +kernel, atResolution_zero _, atResolution_zero _⟩, by decide⟩, _, rfl⟩
theorem witness_ResetAndLoadKeepTheInvariant :
    (placed 0x1200).Inv ∧ (∃ t, (placed 0x1200).command .reset = .next t) ∧
    ∃ t, (placed 0x1200).command (.load defaultFont [0x12, 0x00]) = .next t :=
  ⟨⟨by decide, by decide, ⟨by decide +kernel, by decide +kernel, atResolution_zero _, atResolution_zero _⟩, by decide⟩, ⟨_, rfl⟩,
    ⟨_, rfl⟩⟩
theorem witness_ClockNeverGoesBack :
    (∃ t, step (placed 0xF007) = .next t) ∧ ∃ t, (placed 0xF007).command .reset = .next t := ⟨⟨_, rfl⟩, ⟨_, rfl⟩⟩
/-- A program of 3585 bytes is one too long. -/
theorem witness_LoadWritesTheLaunchImage_refused :
    State.reset.env.inRun = false ∧ 3584 < (List.replicate 3585 (0x00 : Byte)).length :=
  ⟨rfl, by rw [List.length_replicate]; omega⟩
/-- A program of 3584 bytes is the longest that fits. -/
theorem witness_LoadWritesTheLaunchImage_fits :
    State.reset.env.inRun = false ∧ (List.replicate 3584 (0x12 : Byte)).length ≤ 3584 ∧ Memory.wf State.reset.mem :=
  ⟨rfl, by rw [List.length_replicate], by decide⟩
theorem witness_ResetAndLoadCommute :
    State.reset.env.inRun = false ∧ (∃ t, State.reset.command .reset = .next t) ∧
    (∃ u, State.reset.command (.load defaultFont [0x12]) = .next u) ∧ ∃ t, step State.reset = .next t :=
  ⟨rfl, ⟨_, rfl⟩, ⟨_, rfl⟩, ⟨_, rfl⟩⟩
theorem witness_CallPushesTheReturnAddress : (stacked 0).sp.val < 16 ∧ (stacked 15).sp.val < 16 ∧ (stacked 16).sp.val = 16 := by
  decide
theorem witness_ReturnPopsTheStack : 0 < (stacked 1).sp.val ∧ 0 < (stacked 16).sp.val ∧ (stacked 0).sp.val = 0 := by decide
theorem witness_ReturnUndoesCall :
    (stacked 15).sp.val < 16 ∧
    ∃ t u : State, exec (.call 0x300) (stacked 15) = .next t ∧ u.stack = t.stack ∧ u.sp = t.sp ∧ u.pc = 0x344 :=
  ⟨by decide, _, State.setPc _ 0x344, rfl, rfl, rfl, rfl⟩
/-- For `OrRegisters` and `SameRegisterTwice`: both ends of the registers that are not VF. -/
theorem witness_OrRegisters : (0 : Reg) ≠ regVF ∧ (14 : Reg) ≠ regVF := by decide
/-- For `BcdStoresThreeDigits` and `BlockStoreWritesRegisters`: canonical memory at power-on and with bytes at both ends;
an address outside a block that wraps, and one inside it. -/
theorem witness_BlockStoreWritesRegisters :
    Memory.wf State.reset.mem ∧ Memory.wf ((State.reset.writeByte 0x000 1).writeByte 0xFFF 2).mem ∧
    (∀ k, k ≤ (15 : Reg).toNat → (0xFFD : Addr) ≠ (0xFFE : Addr) + BitVec.ofNat 12 k) ∧ (15 : Reg) ≤ 15 ∧
    (0xFFE : Addr) + (15 : Reg).setWidth 12 = 0x00D := by decide
theorem witness_BcdStoresThreeDigits :
    (0x001 : Addr) ≠ 0xFFE ∧ (0x001 : Addr) ≠ 0xFFE + 1 ∧ (0x001 : Addr) ≠ 0xFFE + 2 := by decide
theorem witness_BlockLoadReadsRegisters : (14 : Reg) ≤ 14 ∧ (14 : Reg) < 15 ∧ (0 : Reg) ≤ 0 ∧ (0 : Reg) < 1 := by decide
theorem witness_BlockLoadUndoesBlockStore :
    Memory.wf (past.setReg 0 5).mem ∧
    ∃ t u : State, exec (.storeRegs 15) (past.setReg 0 5) = .next t ∧ u.mem = t.mem ∧ u.i = (past.setReg 0 5).i ∧ u.reg 0 = 9 :=
  ⟨by decide, _, State.setReg (State.setI _ 0) 0 9, rfl, rfl, rfl, by decide⟩
/-- A scroll by 2 in normal mode: row 3 is vacated, row 4 is not. -/
theorem witness_ScrollMovesRowsDown :
    gives (exec (.scd 2) (shown false [(0, 127)])) (fun t => lit t [(4, 127)] && !lit t [(3, 127)] && !lit t [(0, 127)]) =
      true := by decide +kernel
/-- A covered cell at the corner of the grid, in both modes, and one not covered. -/
theorem witness_SpriteFlipsTheCellsItCovers :
    ((((shown true []).setReg 0 0x7F).setReg 1 0x3F).writeByte 0x000 0x80).spriteCovers 0 1 1 63 127 ∧
    ((((shown false []).setReg 0 0x3F).setReg 1 0x1F).writeByte 0x000 0x80).spriteCovers 0 1 1 63 127 ∧
    ¬ (shown false []).spriteCovers 0 1 1 63 127 := by
  refine ⟨⟨0, 0, by decide, by decide, by decide, by decide⟩, ⟨0, 0, by decide, by decide, by decide, by decide⟩, ?_⟩
  rintro ⟨row, bit, -, -, h, -⟩
  simp [shown, past, State.readByte, State.reset, State.setPc, Memory.read] at h
/-- The plain case: the second draw back to back after a first that raises VF. -/
theorem witness_DrawingTwiceRestoresTheDisplay :
    ∃ t : State, exec (.drw 0 1 1) ((shown true [(0, 0)]).writeByte 0x000 0x80) = .next t ∧ t.ext = true ∧
      t.mem = [(0, 0x80)] ∧ t.i = 0 ∧ t.reg 0 = (shown true [(0, 0)]).reg 0 ∧ t.reg 1 = (shown true [(0, 0)]).reg 1 ∧
      t.reg regVF ≠ (shown true [(0, 0)]).reg regVF :=
  ⟨_, rfl, rfl, rfl, rfl, by decide +kernel, by decide +kernel, by decide +kernel⟩
/-- A blank display is uniform; the premise admits a normal-mode draw and an extended-mode scroll by 2. -/
theorem witness_UniformBlocksStayUniform :
    Display.uniformBlocks (shown true []).cells ∧ (∃ t, exec (.scd 2) (shown true []) = .next t) ∧
    ((shown true []).ext = true → (∀ x y n, Instr.scd 2 ≠ .drw x y n) ∧
      ∀ n : Nibble, Instr.scd 2 = .scd n → n.toNat % 2 = 0) ∧
    (shown false []).ext = false ∧ ∃ t, exec (.drw 0 1 5) (shown false []) = .next t := by
  refine ⟨fun r c _ _ => ?_, ⟨_, rfl⟩, fun _ => ⟨fun _ _ _ h => (nomatch h), fun n h => by cases h; decide⟩, rfl, ⟨_, rfl⟩⟩
  simp only [shown, List.foldl_nil, Display.cell, Vector.getElem?_replicate]
  split_ifs <;> simp
theorem witness_DelayReadIsTheEffectiveValue :
    (timed 255 2 2).dstamp ≤ (timed 255 2 2).env.now ∧ (timed 0 0 (1 / 60)).dstamp ≤ (timed 0 0 (1 / 60)).env.now := by
  decide +kernel
/-- The lowest key and the highest, each with none below it. -/
theorem witness_WaitKeyStoresTheLowestKeyOrRewinds_pressed :
    (pressing 0x0001 past).env.keys[(0 : Fin 16)].getLsbD 0 = true ∧
    (pressing 0x8000 past).env.keys[(15 : Fin 16)].getLsbD 15 = true ∧
    ∀ j : Fin 16, j < 15 → (pressing 0x8000 past).env.keys[j].getLsbD j.val = false := by decide
/-- Keys above 15 alone leave the wait unanswered. -/
theorem witness_WaitKeyStoresTheLowestKeyOrRewinds_none :
    ∀ k : Fin 16, (pressing 0x10000 past).env.keys[k].getLsbD k.val = false := by decide
/-- At 0x200, and at 0xFFE, where the pc has wrapped to 0. -/
theorem witness_WaitingRepeatsTheInstruction :
    (pressing 0 ((placed 0xFF0A).setPc 0x202)).halted = false ∧
    decode ((placed 0xFF0A).readByte (0x202 - 2)) ((placed 0xFF0A).readByte (0x202 - 1)) = .ok (.waitKey 15) ∧
    (∀ k : Fin 16, (pressing 0 ((placed 0xFF0A).setPc 0x202)).env.keys[k].getLsbD k.val = false) ∧
    decode (((State.reset.writeByte 0xFFE 0xF0).writeByte 0xFFF 0x0A).readByte (0x000 - 2))
      (((State.reset.writeByte 0xFFE 0xF0).writeByte 0xFFF 0x0A).readByte (0x000 - 1)) = .ok (.waitKey 0) := by decide
theorem witness_WaitingRepeatsTheInstruction_waits :
    (pressing 0 past).status = .ok ∧ gives (exec (.waitKey 15) (pressing 0 past)) (fun t => t.status == .waiting) = true := by
  decide
theorem witness_PortCallsOfEachInstruction :
    (∃ t, exec (.waitKey 15) (pressing 0x8000 past) = .next t) ∧ (∃ t, exec (.waitKey 0) (pressing 0 past) = .next t) ∧
    ∃ t, exec .cls past = .next t := ⟨⟨_, rfl⟩, ⟨_, rfl⟩, ⟨_, rfl⟩⟩
/-- A step that writes memory, VF, a register, the index register, a stack entry, a cell or the mode: for the statements
that say which instructions do. -/
theorem witness_WhoWrites :
    gives (step (placed 0xF033)) (fun t => t.i == 0) = true ∧
    gives (step ((placed 0xF055).setReg 0 7)) (fun t => t.readByte 0 != 0 && t.i != 0) = true ∧
    gives (step (placed 0x6F01)) (fun t => t.reg regVF != 0) = true ∧
    gives (step (placed 0x6E01)) (fun t => t.reg 14 != 0) = true ∧
    gives (step (placed 0x2300)) (fun t => t.stack != State.reset.stack && t.sp != State.reset.sp) = true ∧
    gives (step (placed 0x00FF)) (fun t => t.ext) = true := by decide
theorem witness_OnlyDisplayInstructionsWriteTheDisplay :
    gives (step { placed 0x00E0 with cells := (shown false [(0, 0)]).cells }) (fun t => !lit t [(0, 0)]) = true := by
  decide +kernel
theorem witness_OnlySetDelayWritesTheTimer :
    (∃ t, step (placed 0xF007) = .next t) ∧ ∀ x, (placed 0xF007).decoded ≠ .ok (.setDelay x) := by
  refine ⟨⟨_, rfl⟩, fun x h => ?_⟩
  rw [show (placed 0xF007).decoded = .ok (.ldFromDelay 0) by decide] at h
  cases h
/-- Parked at the reset vector, and at the top of memory, where the fetch wraps. -/
theorem witness_ParkedStaysParked :
    (placed 0x1200).parked ∧ (((State.reset.writeByte 0xFFF 0x1F).writeByte 0x000 0xFF).setPc 0xFFF).parked := by
  refine ⟨⟨?_, ?_⟩, ?_, ?_⟩ <;> decide

end Sys2Proof.Tests
end

section
/-! SUPPORT. Who writes what: the parts of the state, the parts each instruction may write, and what a step leaves
unchanged by it (10_state.md R36). -/

namespace Sys2Proof

/-- The parts of the state that an instruction may write or leave unchanged (10_state.md R36, and the host's side). -/
inductive Part where
  /-- V0 to VF. -/
  | registers
  /-- The index register. -/
  | index
  /-- The program counter. -/
  | pc
  /-- The entries of the call stack. -/
  | stackEntries
  /-- The stack pointer. -/
  | stackPointer
  /-- The delay timer's stored value and its reference time. -/
  | timer
  /-- The display cells. -/
  | cells
  /-- The display mode. -/
  | mode
  /-- The fault latch with its record. -/
  | latch
  /-- The step status. -/
  | status
  /-- Memory. -/
  | memory
  /-- The port calls of the step. -/
  | ports
  /-- The host's inputs to the step: the host's side without the port calls. -/
  | inputs
  deriving DecidableEq

/-- The parts an instruction may write, from the rule of each instruction. -/
def Instr.writes : Instr → List Part
  | .cls | .scd _ => [.cells]
  | .low | .high => [.mode]
  | .drw _ _ _ => [.cells, .registers]
  | .jp _ | .jpV0 _ | .seImm _ _ | .sneImm _ _ | .seReg _ _ | .sneReg _ _ => [.pc]
  | .call _ => [.stackPointer, .pc, .stackEntries, .latch, .status]
  | .ret => [.stackPointer, .pc, .latch, .status]
  | .ldImm _ _ | .addImm _ _ | .ldReg _ _ | .orReg _ _ | .andReg _ _ | .xorReg _ _ | .addReg _ _ | .subReg _ _
  | .shr _ _ | .subnReg _ _ | .shl _ _ | .rnd _ _ | .ldFromDelay _ => [.registers]
  | .ldI _ | .addI _ | .ldGlyph _ => [.index]
  | .storeBcd _ => [.memory]
  | .storeRegs _ => [.memory, .index]
  | .loadRegs _ => [.registers, .index]
  | .skp _ | .sknp _ => [.ports, .pc]
  | .waitKey _ => [.registers, .ports, .pc, .status]
  | .setDelay _ => [.timer]
  | .beep _ => [.ports]

/-- An instruction may write a register: as its destination, as the flag, or as one of a block. -/
def Instr.mayWriteReg (z : Reg) : Instr → Prop
  | .ldImm x _ | .addImm x _ | .ldReg x _ | .orReg x _ | .andReg x _ | .xorReg x _ | .rnd x _ | .ldFromDelay x
  | .waitKey x => z = x
  | .addReg x _ | .subReg x _ | .shr x _ | .subnReg x _ | .shl x _ => z = x ∨ z = regVF
  | .drw _ _ _ => z = regVF
  | .loadRegs x => z ≤ x
  | _ => False

/-! ### Which instructions may write a part -/

theorem Instr.index_mem_writes {i : Instr} : Part.index ∈ i.writes ↔
    (∃ nnn, i = .ldI nnn) ∨ ∃ x, i = .addI x ∨ i = .ldGlyph x ∨ i = .storeRegs x ∨ i = .loadRegs x := by
  cases i <;> simp [Instr.writes]

theorem Instr.stackEntries_mem_writes {i : Instr} : Part.stackEntries ∈ i.writes ↔ ∃ nnn, i = .call nnn := by
  cases i <;> simp [Instr.writes]

theorem Instr.stackPointer_mem_writes {i : Instr} :
    Part.stackPointer ∈ i.writes ↔ (∃ nnn, i = .call nnn) ∨ i = .ret := by
  cases i <;> simp [Instr.writes]

theorem Instr.timer_mem_writes {i : Instr} : Part.timer ∈ i.writes ↔ ∃ x, i = .setDelay x := by
  cases i <;> simp [Instr.writes]

theorem Instr.cells_mem_writes {i : Instr} :
    Part.cells ∈ i.writes ↔ i = .cls ∨ (∃ n, i = .scd n) ∨ ∃ x y n, i = .drw x y n := by
  cases i <;> simp [Instr.writes]

theorem Instr.mode_mem_writes {i : Instr} : Part.mode ∈ i.writes ↔ i = .low ∨ i = .high := by
  cases i <;> simp [Instr.writes]

theorem Instr.memory_mem_writes {i : Instr} :
    Part.memory ∈ i.writes ↔ ∃ x, i = .storeBcd x ∨ i = .storeRegs x := by
  cases i <;> simp [Instr.writes]

theorem Instr.status_mem_writes {i : Instr} :
    Part.status ∈ i.writes ↔ (∃ nnn, i = .call nnn) ∨ i = .ret ∨ ∃ x, i = .waitKey x := by
  cases i <;> simp [Instr.writes]

/-- An instruction that may write the latch may write the status. -/
theorem Instr.status_mem_writes_of_latch {i : Instr} : Part.latch ∈ i.writes → Part.status ∈ i.writes := by
  cases i <;> simp [Instr.writes]

/-- No instruction writes the inputs the host supplies (10_state.md R49). -/
theorem Instr.inputs_notMem_writes (i : Instr) : Part.inputs ∉ i.writes := by
  cases i <;> simp [Instr.writes]

end Sys2Proof

namespace Sys2Proof.Machine

/-- What a part of the state holds. -/
abbrev PartValue : Part → Type
  | .registers => Vector Byte 16
  | .index | .pc => Addr
  | .stackEntries => Vector Word 16
  | .stackPointer => Fin 17
  | .timer => Byte × Rat
  | .cells => Display
  | .mode => Bool
  | .latch => Bool × Addr × Word × FaultCause
  | .status => Status
  | .memory => Memory
  | .ports => List PortCall
  | .inputs => Nat × Rat × Byte × Vector (BitVec 256) 16 × Bool

/-- One part of a state. -/
def State.part (s : State) : (p : Part) → PartValue p
  | .registers => s.v
  | .index => s.i
  | .pc => s.pc
  | .stackEntries => s.stack
  | .stackPointer => s.sp
  | .timer => (s.dval, s.dstamp)
  | .cells => s.cells
  | .mode => s.ext
  | .latch => (s.halted, s.faultPc, s.faultBytes, s.faultCause)
  | .status => s.status
  | .memory => s.mem
  | .ports => s.env.calls
  | .inputs => (s.env.draws, s.env.now, s.env.rand8, s.env.keys, s.env.inRun)

/-- The state with one part replaced. -/
def State.put (s : State) : (p : Part) → PartValue p → State
  | .registers, v => { s with v := v }
  | .index, a => { s with i := a }
  | .pc, a => { s with pc := a }
  | .stackEntries, st => { s with stack := st }
  | .stackPointer, n => { s with sp := n }
  | .timer, u => { s with dval := u.1, dstamp := u.2 }
  | .cells, d => { s with cells := d }
  | .mode, e => { s with ext := e }
  | .latch, u => { s with halted := u.1, faultPc := u.2.1, faultBytes := u.2.2.1, faultCause := u.2.2.2 }
  | .status, u => { s with status := u }
  | .memory, m => { s with mem := m }
  | .ports, l => { s with env := { s.env with calls := l } }
  | .inputs, u =>
    { s with env := { draws := u.1, now := u.2.1, rand8 := u.2.2.1, keys := u.2.2.2.1, calls := s.env.calls,
                      inRun := u.2.2.2.2 } }

/-- Replacing one part leaves every other. -/
theorem State.part_put_of_ne (s : State) {p q : Part} (x : PartValue q) (h : p ≠ q) : (s.put q x).part p = s.part p := by
  revert h
  cases q <;> cases p <;> simp [State.put, State.part]

/-- Two states differ in no part outside a list. -/
def State.differsOnlyIn (s t : State) (ps : List Part) : Prop := ∀ p, p ∉ ps → t.part p = s.part p

theorem State.differsOnlyIn_put (s : State) (q : Part) (x : PartValue q) : s.differsOnlyIn (s.put q x) [q] :=
  fun _ hp => s.part_put_of_ne x (by simpa using hp)

theorem State.differsOnlyIn.append_right {s t : State} {ps : List Part} (h : s.differsOnlyIn t ps) (qs : List Part) :
    s.differsOnlyIn t (ps ++ qs) :=
  fun p hp => h p fun hm => hp (List.mem_append_left qs hm)

theorem State.differsOnlyIn.append_left {s t : State} {qs : List Part} (h : s.differsOnlyIn t qs) (ps : List Part) :
    s.differsOnlyIn t (ps ++ qs) :=
  fun p hp => h p fun hm => hp (List.mem_append_right ps hm)

theorem State.differsOnlyIn.trans {s t u : State} {ps qs : List Part} (h : s.differsOnlyIn t ps)
    (h' : t.differsOnlyIn u qs) : s.differsOnlyIn u (ps ++ qs) :=
  fun p hp => (h'.append_left ps p hp).trans (h.append_right qs p hp)

theorem State.differsOnlyIn.then_put {s t : State} {ps : List Part} (h : s.differsOnlyIn t ps) (q : Part)
    (x : PartValue q) : s.differsOnlyIn (t.put q x) (ps ++ [q]) :=
  h.trans (t.differsOnlyIn_put q x)

/-- A raise writes the latch and the status alone (60_exceptions.md R201). -/
theorem State.differsOnlyIn_raise (s : State) (c : FaultCause) (w : Word) :
    s.differsOnlyIn (s.raise c w) [.latch, .status] :=
  (s.differsOnlyIn_put .latch (true, s.fpc, w, c)).then_put .status .fault

/-! ### The instructions with more than one way to end -/

/-- What a call can do (40_control_flow.md R102). -/
theorem execCall_cases {nnn : Addr} {s t : State} (h : exec (.call nnn) s = .next t) :
    (s.sp.val = 16 ∧ t = s.raise .stackOverflow (encode (.call nnn))) ∨
      ∃ hsp : s.sp.val < 16, t = { s with stack := s.stack.set s.sp.val (s.pc.setWidth 16) hsp,
                                          sp := ⟨s.sp.val + 1, by omega⟩, pc := nnn } := by
  by_cases hsp : s.sp.val = 16
  · exact .inl ⟨hsp, (Host.Outcome.next.inj ((execCall_of_full nnn s hsp).symm.trans h)).symm⟩
  · have hlt : s.sp.val < 16 := by omega
    exact .inr ⟨hlt, (Host.Outcome.next.inj ((execCall_of_lt nnn s hlt).symm.trans h)).symm⟩

/-- What a return can do (40_control_flow.md R100). -/
theorem execRet_cases {s t : State} (h : exec .ret s = .next t) :
    (s.sp.val = 0 ∧ t = s.raise .stackUnderflow (encode .ret)) ∨
      (s.sp.val ≠ 0 ∧ t = { s with sp := ⟨s.sp.val - 1, by omega⟩,
                                   pc := (s.stack[s.sp.val - 1]'(by omega)).setWidth 12 }) := by
  by_cases hsp : s.sp.val = 0
  · exact .inl ⟨hsp, (Host.Outcome.next.inj ((execRet_of_empty s hsp).symm.trans h)).symm⟩
  · exact .inr ⟨hsp, (Host.Outcome.next.inj ((execRet_of_pos s hsp).symm.trans h)).symm⟩

/-- What `Fx0A` can do: it stores the number of a key answered true, or no key is answered true and it goes back to itself
with the status WAITING; the queries it makes are logged (44_timer_io.md R185). -/
theorem execWaitKey_cases {x : Reg} {s t : State} (h : exec (.waitKey x) s = .next t) :
    (∃ n cs, ∃ hn : n < 16, (s.env.keys[n]'hn).getLsbD n = true ∧
        t = (s.withCalls cs).setReg x ((BitVec.ofNat 4 n).setWidth 8)) ∨
      ((∀ n, ∀ hn : n < 16, (s.env.keys[n]'hn).getLsbD n = false) ∧
        ∃ cs, t = { (s.withCalls cs).setPc s.fpc with status := .waiting }) := by
  have ht : State.afterPoll x (State.pollKeys allKeys s) = t := Host.Outcome.next.inj h
  rcases s.pollKeys_allKeys with ⟨n, hn, hkey, -, hpoll⟩ | ⟨hnone, hpoll⟩ <;> rw [hpoll] at ht
  · exact .inl ⟨n, _, hn, hkey, ht.symm⟩
  · exact .inr ⟨hnone, _, ht.symm⟩

/-! ### What an instruction and a step leave unchanged -/

/-- An instruction changes no part but those it may write. -/
theorem exec_differsOnlyIn {i : Instr} {s t : State} (h : exec i s = .next t) : s.differsOnlyIn t i.writes := by
  cases i with
  | cls | scd n => cases h; exact s.differsOnlyIn_put .cells _
  | low | high => cases h; exact s.differsOnlyIn_put .mode _
  | drw x y n => cases h; exact (s.differsOnlyIn_put .cells _).then_put .registers _
  | jp nnn | jpV0 nnn | seImm x nn | sneImm x nn | seReg x y | sneReg x y => cases h; exact s.differsOnlyIn_put .pc _
  | ldImm x nn | addImm x nn | ldReg x y | orReg x y | andReg x y | xorReg x y | addReg x y | subReg x y | shr x y
  | subnReg x y | shl x y | rnd x nn | ldFromDelay x => cases h; exact s.differsOnlyIn_put .registers _
  | ldI nnn | addI x | ldGlyph x => cases h; exact s.differsOnlyIn_put .index _
  | storeBcd x => cases h; exact s.differsOnlyIn_put .memory _
  | storeRegs x =>
    cases h
    rw [State.storeBlock_eq]
    exact (s.differsOnlyIn_put .memory _).then_put .index _
  | loadRegs x =>
    cases h
    rw [State.loadBlock_eq]
    exact (s.differsOnlyIn_put .registers _).then_put .index _
  | setDelay x => cases h; exact s.differsOnlyIn_put .timer (s.reg x, s.env.now)
  | beep x => cases h; exact s.differsOnlyIn_put .ports _
  | skp x | sknp x => cases h; exact (s.differsOnlyIn_put .ports _).then_put .pc _
  | call nnn =>
    obtain ⟨-, rfl⟩ | ⟨hsp, rfl⟩ := execCall_cases h
    · exact (s.differsOnlyIn_raise _ _).append_left [.stackPointer, .pc, .stackEntries]
    · exact (((s.differsOnlyIn_put .stackPointer ⟨s.sp.val + 1, by omega⟩).then_put .pc nnn).then_put .stackEntries
        _).append_right [.latch, .status]
  | ret =>
    obtain ⟨-, rfl⟩ | ⟨hsp, rfl⟩ := execRet_cases h
    · exact (s.differsOnlyIn_raise _ _).append_left [.stackPointer, .pc]
    · exact ((s.differsOnlyIn_put .stackPointer ⟨s.sp.val - 1, by omega⟩).then_put .pc _).append_right [.latch, .status]
  | waitKey x =>
    obtain ⟨n, cs, -, -, rfl⟩ | ⟨-, cs, rfl⟩ := execWaitKey_cases h
    · exact ((s.differsOnlyIn_put .registers _).then_put .ports cs).append_right [.pc, .status]
    · exact (((s.differsOnlyIn_put .ports cs).then_put .pc s.fpc).then_put .status .waiting).append_left [.registers]

/-- What a step leaves of a part that no raise writes: it is as the step began, or the instruction decoded may write it and
its meaning gives the next state. -/
theorem step_part {s t : State} {p : Part} (h : step s = .next t) (hp : p ∉ [Part.latch, Part.status]) :
    t.part p = s.begin.part p ∨ ∃ i, s.decoded = .ok i ∧ p ∈ i.writes ∧ exec i s.begin = .next t := by
  obtain ⟨-, ⟨i, hd, hx⟩ | ⟨-, rfl⟩⟩ := step_cases h
  · by_cases hw : p ∈ i.writes
    · exact .inr ⟨i, hd, hw, hx⟩
    · exact .inl (exec_differsOnlyIn hx p hw)
  · exact .inl (s.begin.differsOnlyIn_raise _ _ p hp)

/-- A step takes the inputs drawn when it begins and writes none of them. -/
theorem step_inputs {s t : State} (h : step s = .next t) : t.part .inputs = s.begin.part .inputs :=
  (step_part h (by decide)).resolve_right fun ⟨i, _, hw, _⟩ => i.inputs_notMem_writes hw

/-- A step of an instruction that was decoded is its meaning. -/
theorem exec_of_step {s t : State} {i : Instr} (h : step s = .next t) (hd : s.decoded = .ok i) :
    exec i s.begin = .next t := by
  obtain ⟨-, ⟨j, hj, hx⟩ | ⟨⟨e, he⟩, -⟩⟩ := step_cases h
  · cases hd.symm.trans hj
    exact hx
  · cases hd.symm.trans he

end Sys2Proof.Machine
end

section
/-! The invariant of the machine: every part of it is kept by every instruction's meaning, and so by every step. -/

namespace Sys2Proof.Machine

/-- Every instruction keeps memory canonical (20_memory.md R50). -/
theorem exec_mem_wf {i : Instr} {s t : State} (h : exec i s = .next t) (hm : Memory.wf s.mem) : Memory.wf t.mem := by
  by_cases hw : Part.memory ∈ i.writes
  · obtain ⟨x, rfl | rfl⟩ := Instr.memory_mem_writes.1 hw <;> cases h
    · exact State.writeByte_wf _ _ _ (State.writeByte_wf _ _ _ (State.writeByte_wf _ _ _ hm))
    · exact State.storeBlock_wf _ _ hm
  · have hsame : t.mem = s.mem := exec_differsOnlyIn h .memory hw
    rwa [hsame]

/-- A 12-bit address leaves bits 15 to 12 of an entry 0. -/
theorem setWidth_addr_lt (a : Addr) : a.setWidth 16 < 0x1000#16 := by
  rw [BitVec.lt_def, BitVec.toNat_setWidth_of_le (by decide)]
  exact a.isLt

/-- Every instruction keeps the stack entries below 0x1000 (10_state.md R27). -/
theorem exec_stackInv {i : Instr} {s t : State} (h : exec i s = .next t) (hs : s.stackInv) : t.stackInv := by
  by_cases hw : Part.stackEntries ∈ i.writes
  · obtain ⟨nnn, rfl⟩ := Instr.stackEntries_mem_writes.1 hw
    obtain ⟨-, rfl⟩ | ⟨hsp, rfl⟩ := execCall_cases h
    · exact hs
    · intro k
      simp only [Fin.getElem_fin, Vector.getElem_set]
      split_ifs
      · exact setWidth_addr_lt s.pc
      · exact hs k
  · have hsame : t.stack = s.stack := exec_differsOnlyIn h .stackEntries hw
    simpa only [State.stackInv, hsame] using hs

/-- Every instruction keeps the clock ordered and on its grid (10_state.md R49). -/
theorem exec_clockInv {i : Instr} {s t : State} (h : exec i s = .next t) (hc : s.clockInv) : t.clockInv := by
  obtain ⟨hpos, hle, hstamp, hnow⟩ := hc
  have henv : t.env.now = s.env.now := congrArg (fun u => u.2.1) (exec_differsOnlyIn h .inputs i.inputs_notMem_writes)
  by_cases hw : Part.timer ∈ i.writes
  · obtain ⟨x, rfl⟩ := Instr.timer_mem_writes.1 hw
    cases h
    exact ⟨hpos.trans hle, le_rfl, hnow, hnow⟩
  · have hdst : t.dstamp = s.dstamp := congrArg Prod.snd (exec_differsOnlyIn h .timer hw)
    rw [State.clockInv, hdst, henv]
    exact ⟨hpos, hle, hstamp, hnow⟩

/-- A raise sets the latch, the cause and the status together (60_exceptions.md R201). -/
theorem State.latchInv_raise (s : State) {c : FaultCause} (w : Word) (hc : c ≠ .none) : (s.raise c w).latchInv :=
  ⟨iff_of_true rfl hc, iff_of_true rfl rfl⟩

/-- Every instruction run by a core that is not halted keeps the latch consistent (10_state.md R34, R35). -/
theorem exec_latchInv {i : Instr} {s t : State} (h : exec i s = .next t) (hh : s.halted = false) (hl : s.latchInv) :
    t.latchInv := by
  by_cases hw : Part.status ∈ i.writes
  · obtain ⟨nnn, rfl⟩ | rfl | ⟨x, rfl⟩ := Instr.status_mem_writes.1 hw
    · obtain ⟨-, rfl⟩ | ⟨-, rfl⟩ := execCall_cases h
      · exact s.latchInv_raise _ (by decide)
      · exact hl
    · obtain ⟨-, rfl⟩ | ⟨-, rfl⟩ := execRet_cases h
      · exact s.latchInv_raise _ (by decide)
      · exact hl
    · obtain ⟨n, cs, -, -, rfl⟩ | ⟨-, cs, rfl⟩ := execWaitKey_cases h
      · exact hl
      · exact ⟨hl.1, by simp [State.withCalls, hh]⟩
  · have hst : t.status = s.status := exec_differsOnlyIn h .status hw
    have hlat := exec_differsOnlyIn h .latch (mt Instr.status_mem_writes_of_latch hw)
    have hhal : t.halted = s.halted := congrArg Prod.fst hlat
    have hcau : t.faultCause = s.faultCause := congrArg (fun u => u.2.2.2) hlat
    simpa only [State.latchInv, hst, hhal, hcau] using hl

/-- The inputs drawn at the beginning of a step keep the invariant (10_state.md R49). -/
theorem State.Inv_begin {s : State} (h : s.Inv) (hh : s.halted = false) : s.begin.Inv := by
  obtain ⟨hmem, hstack, ⟨hpos, hle, hstamp, hnow⟩, hcause, -⟩ := h
  have hclock : s.begin.clockInv := ⟨hpos, hle.trans (Env.le_nextNow _ _), hstamp, Env.atResolution_nextNow hnow⟩
  exact ⟨hmem, hstack, hclock, hcause, by simp [hh]⟩

/-- Settles O12: beginning a step keeps the invariant, and so do every instruction's meaning and a raise. -/
theorem stepKeepsTheInvariant : Obligations.StepKeepsTheInvariant := by
  intro s t hinv h
  obtain ⟨hh, hcases⟩ := step_cases h
  obtain ⟨hmem, hstack, hclock, hlatch⟩ := State.Inv_begin hinv hh
  obtain ⟨i, -, hx⟩ | ⟨-, rfl⟩ := hcases
  · exact ⟨exec_mem_wf hx hmem, exec_stackInv hx hstack, exec_clockInv hx hclock, exec_latchInv hx hh hlatch⟩
  · exact ⟨hmem, hstack, hclock, s.begin.latchInv_raise _ (by decide)⟩

end Sys2Proof.Machine
end

section
/-! Which instruction writes what: the timer, the index register, the stack, the display, the clock. -/

namespace Sys2Proof.Machine

/-- Settles O53: the timer is a part that only `Fx15` may write. -/
theorem onlySetDelayWritesTheTimer : Obligations.OnlySetDelayWritesTheTimer := by
  intro s t h hnot
  rcases step_part (p := .timer) h (by decide) with hsame | ⟨i, hd, hw, -⟩
  · exact Prod.mk.inj hsame
  · obtain ⟨x, rfl⟩ := Instr.timer_mem_writes.1 hw
    exact absurd hd (hnot x)

/-- Settles O57: the index register is a part that only the five may write. -/
theorem onlyFiveInstructionsWriteTheIndex : Obligations.OnlyFiveInstructionsWriteTheIndex := by
  intro s t h hne
  obtain ⟨i, hd, hw, -⟩ := (step_part (p := .index) h (by decide)).resolve_left hne
  simpa [hd] using Instr.index_mem_writes.1 hw

/-- A call that moves the stack pointer makes it grow by one. -/
theorem execCall_sp {nnn : Addr} {s t : State} (h : exec (.call nnn) s = .next t) (hne : t.sp ≠ s.sp) :
    t.sp.val = s.sp.val + 1 := by
  obtain ⟨-, rfl⟩ | ⟨-, rfl⟩ := execCall_cases h
  · exact absurd rfl hne
  · rfl

/-- A return that moves the stack pointer makes it fall by one. -/
theorem execRet_sp {s t : State} (h : exec .ret s = .next t) (hne : t.sp ≠ s.sp) : s.sp.val = t.sp.val + 1 := by
  obtain ⟨-, rfl⟩ | ⟨hsp, rfl⟩ := execRet_cases h
  · exact absurd rfl hne
  · exact (Nat.succ_pred_eq_of_ne_zero hsp).symm

/-- Settles O58: a call is the only instruction that may write the entries; a call and a return move the pointer by one. -/
theorem onlyCallAndReturnReachTheStack : Obligations.OnlyCallAndReturnReachTheStack := by
  intro s t h
  constructor
  · intro hne
    obtain ⟨i, hd, hw, -⟩ := (step_part (p := .stackEntries) h (by decide)).resolve_left hne
    obtain ⟨nnn, rfl⟩ := Instr.stackEntries_mem_writes.1 hw
    exact ⟨nnn, hd⟩
  · intro hne
    obtain ⟨i, hd, hw, hx⟩ := (step_part (p := .stackPointer) h (by decide)).resolve_left hne
    obtain ⟨nnn, rfl⟩ | rfl := Instr.stackPointer_mem_writes.1 hw
    · exact .inl ⟨⟨nnn, hd⟩, execCall_sp (s := s.begin) hx hne⟩
    · exact .inr ⟨hd, execRet_sp (s := s.begin) hx hne⟩

/-- Settles O59: the cells and the mode are parts that only the display instructions may write. -/
theorem onlyDisplayInstructionsWriteTheDisplay : Obligations.OnlyDisplayInstructionsWriteTheDisplay := by
  intro s t h
  constructor
  · intro hne
    obtain ⟨i, hd, hw, -⟩ := (step_part (p := .cells) h (by decide)).resolve_left hne
    simpa [hd] using Instr.cells_mem_writes.1 hw
  · intro hne
    obtain ⟨i, hd, hw, hx⟩ := (step_part (p := .mode) h (by decide)).resolve_left hne
    obtain rfl | rfl := Instr.mode_mem_writes.1 hw
    · cases hx
      exact .inl ⟨hd, rfl⟩
    · cases hx
      exact .inr ⟨hd, rfl⟩

/-- Settles O15: a step and a RESET draw the inputs once, and the sample drawn is at least the last one. -/
theorem clockNeverGoesBack : Obligations.ClockNeverGoesBack := by
  rintro s t (h | h)
  · obtain ⟨hdraws, hnow⟩ : t.env.draws = s.env.draw.draws ∧ t.env.now = s.env.draw.now :=
      ⟨congrArg Prod.fst (step_inputs h), congrArg (fun u => u.2.1) (step_inputs h)⟩
    exact ⟨hnow ▸ Env.le_nextNow _ _, hdraws⟩
  · cases h
    exact ⟨Env.le_nextNow _ _, rfl⟩

end Sys2Proof.Machine
end

section
/-! Which instruction changes a register. -/

namespace Sys2Proof.Machine

/-- A register that a result and its flag do not go to. -/
theorem State.reg_setRegFlag_other (s : State) {x z : Reg} (rf : Byte × Byte) (h : ¬ (z = x ∨ z = regVF)) :
    (s.setRegFlag x rf).reg z = s.reg z := by
  obtain ⟨hx, hf⟩ := not_or.1 h
  rw [State.reg_setRegFlag, if_neg hf, if_neg hx]

/-- An instruction leaves every register that it may not write. -/
theorem exec_reg_other {i : Instr} {s t : State} {z : Reg} (h : exec i s = .next t) (hz : ¬ i.mayWriteReg z) :
    t.reg z = s.reg z := by
  cases i with
  | ldImm x nn | addImm x nn | ldReg x y | orReg x y | andReg x y | xorReg x y | rnd x nn | ldFromDelay x =>
    cases h
    exact s.reg_setReg_other _ hz
  | addReg x y | subReg x y | shr x y | subnReg x y | shl x y =>
    cases h
    exact s.reg_setRegFlag_other _ hz
  | drw x y n =>
    cases h
    exact State.reg_setReg_other _ _ hz
  | loadRegs x =>
    cases h
    refine (State.reg_loadBlock _ (by omega) s z).trans (if_neg fun hlt => hz ?_)
    exact BitVec.le_def.2 (Nat.le_of_lt_succ hlt)
  | waitKey x =>
    obtain ⟨n, cs, -, -, rfl⟩ | ⟨-, cs, rfl⟩ := execWaitKey_cases h
    · exact State.reg_setReg_other _ _ hz
    · rfl
  | _ => exact State.reg_eq_of_v (exec_differsOnlyIn h .registers (by simp [Instr.writes])) z

/-- A step that changes a register runs an instruction that may write it. -/
theorem step_reg {s t : State} {z : Reg} (h : step s = .next t) (hne : t.reg z ≠ s.reg z) :
    ∃ i, s.decoded = .ok i ∧ i.mayWriteReg z := by
  obtain ⟨i, hd, -, hx⟩ :=
    (step_part (p := .registers) h (by decide)).resolve_left fun hv => hne (State.reg_eq_of_v hv z)
  exact ⟨i, hd, by_contra fun hz => hne (exec_reg_other (s := s.begin) hx hz)⟩

/-- Settles O54: an instruction that may write VF writes it as the flag, or names it as its destination. -/
theorem onlyTheseWriteVF : Obligations.OnlyTheseWriteVF := by
  intro s t _ h hne
  obtain ⟨i, hd, hr⟩ := step_reg h hne
  refine ⟨i, hd, ?_⟩
  cases i with
  | addReg x y | subReg x y | subnReg x y | shr x y | shl x y | drw x y n => trivial
  | loadRegs x =>
    have top : ∀ x : Reg, regVF ≤ x → x = regVF := by decide
    exact top x hr
  | ldImm x nn | addImm x nn | ldReg x y | orReg x y | andReg x y | xorReg x y | rnd x nn | ldFromDelay x
  | waitKey x => exact Eq.symm hr
  | _ => exact hr

/-- Settles O55: an instruction that may write a register other than VF names it as its destination, or loads it. -/
theorem onlyTheDestinationChanges : Obligations.OnlyTheDestinationChanges := by
  intro s t z _ h hz hne
  obtain ⟨i, hd, hr⟩ := step_reg h hne
  refine ⟨i, hd, ?_⟩
  cases i with
  | addReg x y | subReg x y | subnReg x y | shr x y | shl x y => exact hr.resolve_right hz
  | drw x y n => exact hz hr
  | _ => exact hr

end Sys2Proof.Machine
end

section
/-! The pc after a step, instruction by instruction. -/

namespace Sys2Proof.Machine

/-- The pc after a call: on a full stack it stays past the call (40_control_flow.md R102). -/
theorem execCall_pc {nnn : Addr} {s t : State} (h : exec (.call nnn) s = .next t) :
    t.pc = if s.sp.val = 16 then s.pc else nnn := by
  obtain ⟨hsp, rfl⟩ | ⟨hsp, rfl⟩ := execCall_cases h
  · exact (if_pos hsp).symm
  · exact (if_neg hsp.ne).symm

/-- The pc after a return: on an empty stack it stays past the return (40_control_flow.md R100). -/
theorem execRet_pc {s t : State} (h : exec .ret s = .next t) :
    t.pc = if s.sp.val = 0 then s.pc else (s.stack[s.sp.val - 1]?.getD 0).setWidth 12 := by
  obtain ⟨hsp, rfl⟩ | ⟨hsp, rfl⟩ := execRet_cases h
  · exact (if_pos hsp).symm
  · rw [if_neg hsp, Vector.getElem?_eq_getElem (show s.sp.val - 1 < 16 by omega), Option.getD_some]

/-- The pc after `Fx0A`: back at the instruction when no key is pressed (44_timer_io.md R185). -/
theorem execWaitKey_pc {x : Reg} {s t : State} (h : exec (.waitKey x) s = .next t) :
    t.pc = if ∃ k : Fin 16, s.env.keys[k].getLsbD k.val = true then s.pc else s.fpc := by
  obtain ⟨n, cs, hn, hkey, rfl⟩ | ⟨hnone, cs, rfl⟩ := execWaitKey_cases h
  · exact (if_pos ⟨⟨n, hn⟩, hkey⟩).symm
  · exact (if_neg fun ⟨k, hk⟩ => Bool.false_ne_true ((hnone k.val k.isLt).symm.trans hk)).symm

/-- `(nnn + V[0]) mod 4096`, on numbers. -/
theorem State.v0Addr_eq (s : State) (nnn : Addr) : s.v0Addr nnn = BitVec.ofNat 12 (nnn.toNat + (s.reg 0).toNat) :=
  BitVec.eq_of_toNat_eq (by simp [State.v0Addr])

section
variable {s : State} {a : Addr} (h : s.pc = a + 2)
include h

/-- A skip, from the pc past an instruction at `a` (40_control_flow.md R108). -/
theorem State.skipIf_pc_past (c : Bool) : (s.skipIf c).pc = if c then a + 4 else a + 2 := by
  rw [State.skipIf_pc, h, BitVec.add_assoc]
  rfl

theorem State.skipIf_not_pc_past (c : Bool) : (s.skipIf (!c)).pc = if c then a + 2 else a + 4 := by
  cases c <;> exact State.skipIf_pc_past h _

theorem State.skipIf_eq_pc_past (b c : Byte) : (s.skipIf (b == c)).pc = if b = c then a + 4 else a + 2 :=
  (State.skipIf_pc_past h _).trans (if_congr beq_iff_eq rfl rfl)

theorem State.skipIf_ne_pc_past (b c : Byte) : (s.skipIf (b != c)).pc = if b = c then a + 2 else a + 4 :=
  (State.skipIf_not_pc_past h _).trans (if_congr beq_iff_eq rfl rfl)

end

/-- The fetch address of a step that has begun is the pc before it. -/
theorem State.begin_fpc (s : State) : s.begin.fpc = s.pc := add_sub_cancel_right s.pc 2

/-- Settles O11: the instructions that may write the pc one by one, and every other by its frame. -/
theorem pcAfterEveryStep : Obligations.PcAfterEveryStep := by
  intro s t _ h
  constructor
  · intro hnone
    obtain ⟨-, ⟨i, hd, -⟩ | ⟨-, rfl⟩⟩ := step_cases h
    · exact absurd hd (hnone i)
    · rfl
  intro i hd
  have hx := exec_of_step h hd
  cases i with
  | jp nnn => cases hx; rfl
  | jpV0 nnn => cases hx; exact s.begin.v0Addr_eq nnn
  | call nnn => exact execCall_pc hx
  | ret => exact execRet_pc hx
  | seImm x nn => cases hx; exact State.skipIf_eq_pc_past rfl _ _
  | sneImm x nn => cases hx; exact State.skipIf_ne_pc_past rfl _ _
  | seReg x y => cases hx; exact State.skipIf_eq_pc_past rfl _ _
  | sneReg x y => cases hx; exact State.skipIf_ne_pc_past rfl _ _
  | skp x => cases hx; exact State.skipIf_pc_past rfl _
  | sknp x => cases hx; exact State.skipIf_not_pc_past rfl _
  | waitKey x =>
    rw [execWaitKey_pc hx, State.begin_fpc]
    rfl
  | _ => exact exec_differsOnlyIn (s := s.begin) hx .pc (by simp [Instr.writes])

end Sys2Proof.Machine
end

section
/-! The decoder reads back what the encoder writes (30_encoding.md R71, R74). -/

namespace Sys2Proof

/-- The two bytes of a word decode as the word does (20_memory.md R52). -/
theorem decode_bytes (w : Word) : decode (opcodeByte w) (fieldNN w) = decodeWord w := by
  rw [decode, wordOfBytes_bytes]

/-- The encoder puts each operand in the field the decoder takes it from, family by family of the opcode map. -/
theorem decodeWord_encode (i : Instr) : decodeWord (encode i) = .ok i := by
  cases i with
  | cls | ret | low | high => rfl
  | scd n => revert n; decide
  | jp nnn | call nnn | ldI nnn | jpV0 nnn => simp [encode, decodeWord]
  | seImm x nn | sneImm x nn | ldImm x nn | addImm x nn | rnd x nn => simp [encode, decodeWord]
  | drw x y n => simp [encode, decodeWord]
  | seReg x y | sneReg x y => simp [encode, decodeWord, decodeSkipReg]
  | ldReg x y | orReg x y | andReg x y | xorReg x y | addReg x y | subReg x y | shr x y | subnReg x y | shl x y =>
    simp [encode, decodeWord, decodeAlu]
  | skp x | sknp x => simp [encode, decodeWord, decodeKey]
  | ldFromDelay x | waitKey x | setDelay x | beep x | addI x | ldGlyph x | storeBcd x | storeRegs x | loadRegs x =>
    simp [encode, decodeWord, decodeMisc]

/-- Settles O2: the word decodes to the instruction, and its two bytes as the word does. -/
theorem decodeOfEncodeIsTheInstruction : Obligations.DecodeOfEncodeIsTheInstruction := fun i =>
  ⟨decodeWord_encode i, (decode_bytes (encode i)).trans (decodeWord_encode i)⟩

end Sys2Proof
end

section
/-! Which instruction writes memory, and where. -/

namespace Sys2Proof.Machine

/-- A BCD store leaves every byte but the three from `I` (42_index_memory.md R143). -/
theorem execStoreBcd_readByte_other {x : Reg} {s t : State} {a : Addr} (h : exec (.storeBcd x) s = .next t)
    (ha : ∀ k, k < 3 → a ≠ s.indexAddr k) : t.readByte a = s.readByte a := by
  cases h
  rw [State.readByte_writeByte_other _ _ (ha 2 (by decide)), State.readByte_writeByte_other _ _ (ha 1 (by decide)),
    State.readByte_writeByte_other _ _ (ha 0 (by decide))]

/-- A block store leaves every byte but the `x + 1` from `I` (42_index_memory.md R144). -/
theorem execStoreRegs_readByte_other {x : Reg} {s t : State} {a : Addr} (h : exec (.storeRegs x) s = .next t)
    (ha : ∀ k, k ≤ x.toNat → a ≠ s.indexAddr k) : t.readByte a = s.readByte a := by
  cases h
  exact s.readByte_storeBlock_other _ a fun k hk => ha k (Nat.le_of_lt_succ hk)

/-- Settles O56: memory is a part that only the two stores may write, and each leaves the bytes that its addresses do
not name. -/
theorem onlyTwoInstructionsWriteMemory : Obligations.OnlyTwoInstructionsWriteMemory := by
  intro s t a h hne
  obtain ⟨i, hd, hw, hx⟩ :=
    (step_part (p := .memory) h (by decide)).resolve_left fun hm => hne (State.readByte_eq_of_mem hm a)
  obtain ⟨x, rfl | rfl⟩ := Instr.memory_mem_writes.1 hw
  · refine .inl ⟨x, hd, ?_⟩
    by_contra! hout
    exact hne (execStoreBcd_readByte_other (s := s.begin) hx hout)
  · refine .inr ⟨x, hd, ?_⟩
    by_contra! hout
    exact hne (execStoreRegs_readByte_other (s := s.begin) hx hout)

end Sys2Proof.Machine
end

section
/-! What the decoder's answer says about a word: an instruction whose encoding is the word, or the group of illegal words
the word is in (30_encoding.md R71, R73, R76). -/

namespace Sys2Proof

/-! ### A word is laid out from its fields -/

section
variable {w : Word} {o x y n : Nibble} {b : Byte}

theorem append_address_eq (ho : fieldOp w = o) : o ++ fieldNNN w = w := ho ▸ word_address w

theorem append_immediate_eq (ho : fieldOp w = o) (hx : fieldX w = x) (hb : fieldNN w = b) : o ++ x ++ b = w :=
  ho ▸ hx ▸ hb ▸ word_immediate w

theorem append_registers_eq (ho : fieldOp w = o) (hx : fieldX w = x) (hy : fieldY w = y) (hn : fieldN w = n) :
    o ++ x ++ y ++ n = w :=
  ho ▸ hx ▸ hy ▸ hn ▸ word_registers w

end

/-- A `00Cn` word, nibble by nibble. -/
theorem encode_scd_eq {w : Word} (ho : fieldOp w = 0x0) (hx : fieldX w = 0x0) (hy : fieldY w = 0xC) :
    encode (.scd (fieldN w)) = w :=
  have h : 0x0#4 ++ 0x0#4 ++ 0xC#4 ++ fieldN w = w := append_registers_eq ho hx hy rfl
  h

/-- The encodings of SCD are the words from `00C0` to `00CF`. -/
theorem encode_scd_mem_range (n : Nibble) : 0x00C0 ≤ encode (.scd n) ∧ encode (.scd n) ≤ 0x00CF := by
  revert n
  decide

theorem encode_scd_of_mem_range {w : Word} (h : 0x00C0 ≤ w ∧ w ≤ 0x00CF) : encode (.scd (fieldN w)) = w := by
  obtain ⟨hlo, hhi⟩ : 0xC0 ≤ w.toNat ∧ w.toNat ≤ 0xCF := h
  refine BitVec.eq_of_toNat_eq ?_
  have hn : (fieldN w).toNat = w.toNat % 16 := BitVec.extractLsb'_toNat 0 4 w
  have happ : (encode (.scd (fieldN w))).toNat = 0xC <<< 4 ||| (fieldN w).toNat := BitVec.toNat_append _ _
  rw [happ, ← Nat.shiftLeft_add_eq_or_of_lt (fieldN w).isLt]
  omega

/-! ### The groups of illegal words -/

/-- The words that a rejection's name stands for (30_encoding.md R76). -/
def Rejected.group (w : Word) : Rejected → Prop
  | .zeroFamily => fieldOp w = 0x0 ∧ w ≠ 0x00E0 ∧ w ≠ 0x00EE ∧ w ≠ 0x00FE ∧ w ≠ 0x00FF ∧ ¬ (0x00C0 ≤ w ∧ w ≤ 0x00CF)
  | .skipNibble => (fieldOp w = 0x5 ∨ fieldOp w = 0x9) ∧ fieldN w ≠ 0x0
  | .aluNibble => fieldOp w = 0x8 ∧ fieldN w ∈ [0x8#4, 0x9#4, 0xA#4, 0xB#4, 0xC#4, 0xD#4, 0xF#4]
  | .keyByte => fieldOp w = 0xE ∧ fieldNN w ∉ [0x9E#8, 0xA1#8]
  | .miscByte =>
    fieldOp w = 0xF ∧ fieldNN w ∉ [0x07#8, 0x0A#8, 0x15#8, 0x18#8, 0x1E#8, 0x29#8, 0x33#8, 0x55#8, 0x65#8]

/-- A word that is rejected encodes no instruction. -/
theorem encode_ne_of_decodeWord_error {w : Word} {e : Rejected} (h : decodeWord w = .error e) (i : Instr) :
    w ≠ encode i := by
  rintro rfl
  cases (decodeWord_encode i).symm.trans h

/-- A rejected word of the `0` family is in its group: every other word of the family encodes an instruction. -/
theorem Rejected.group_zeroFamily {w : Word} {e : Rejected} (ho : fieldOp w = 0x0) (h : decodeWord w = .error e) :
    Rejected.zeroFamily.group w :=
  have hne := encode_ne_of_decodeWord_error h
  ⟨ho, hne .cls, hne .ret, hne .low, hne .high, fun hr => hne _ (encode_scd_of_mem_range hr).symm⟩

/-! ### The decoder, family by family -/

/-- An answer is right about a word: the instruction's encoding is the word, or the word is in the group named. -/
def Describes (w : Word) : Except Rejected Instr → Prop
  | .ok i => encode i = w
  | .error e => e.group w

section
variable {w : Word}

theorem decodeZero_describes (ho : fieldOp w = 0x0) : Describes w (decodeZero w) := by
  have hd : decodeWord w = decodeZero w := by rw [decodeWord, ho]; rfl
  have herr (h : decodeZero w = .error .zeroFamily) := Rejected.group_zeroFamily ho (hd.trans h)
  unfold decodeZero at herr ⊢
  split_ifs at herr ⊢ with hx he0 hee hfe hff hc
  · exact herr rfl
  · exact append_immediate_eq ho (not_not.1 hx) he0
  · exact append_immediate_eq ho (not_not.1 hx) hee
  · exact append_immediate_eq ho (not_not.1 hx) hfe
  · exact append_immediate_eq ho (not_not.1 hx) hff
  · exact encode_scd_eq ho (not_not.1 hx) hc
  · exact herr rfl

theorem decodeSkipReg_describes {i : Instr} (ho : fieldOp w = 0x5 ∨ fieldOp w = 0x9)
    (hi : fieldN w = 0x0 → encode i = w) : Describes w (decodeSkipReg w i) := by
  unfold decodeSkipReg
  split_ifs with hn
  · exact hi hn
  · exact ⟨ho, hn⟩

theorem decodeAlu_describes (ho : fieldOp w = 0x8) : Describes w (decodeAlu w) := by
  unfold decodeAlu
  split_ifs
  case neg =>
    refine ⟨ho, ?_⟩
    generalize fieldN w = n at *
    revert n
    decide
  all_goals exact append_registers_eq ho rfl rfl ‹_›

theorem decodeKey_describes (ho : fieldOp w = 0xE) : Describes w (decodeKey w) := by
  unfold decodeKey
  split_ifs
  case neg => exact ⟨ho, by simp_all⟩
  all_goals exact append_immediate_eq ho rfl ‹_›

theorem decodeMisc_describes (ho : fieldOp w = 0xF) : Describes w (decodeMisc w) := by
  unfold decodeMisc
  split_ifs
  case neg => exact ⟨ho, by simp_all⟩
  all_goals exact append_immediate_eq ho rfl ‹_›

/-- The decoder's answer is right about every word. -/
theorem decodeWord_describes (w : Word) : Describes w (decodeWord w) := by
  unfold decodeWord
  split
  case h_1 ho => exact decodeZero_describes ho
  case h_6 ho => exact decodeSkipReg_describes (.inl ho) (append_registers_eq ho rfl rfl)
  case h_10 ho => exact decodeSkipReg_describes (.inr ho) (append_registers_eq ho rfl rfl)
  case h_9 ho => exact decodeAlu_describes ho
  case h_15 ho => exact decodeKey_describes ho
  case h_16 =>
    refine decodeMisc_describes ?_
    generalize fieldOp w = o at *
    revert o
    decide
  case h_14 ho => exact append_registers_eq ho rfl rfl rfl
  case h_2 ho | h_3 ho | h_11 ho | h_12 ho => exact append_address_eq ho
  case h_4 ho | h_5 ho | h_7 ho | h_8 ho | h_13 ho => exact append_immediate_eq ho rfl rfl

theorem encode_eq_of_decodeWord {i : Instr} (h : decodeWord w = .ok i) : encode i = w := by
  have hw := decodeWord_describes w
  rwa [h] at hw

theorem group_of_decodeWord {e : Rejected} (h : decodeWord w = .error e) : e.group w := by
  have hw := decodeWord_describes w
  rwa [h] at hw

end

/-- Settles O3: what the decoder answers about a word is right. -/
theorem legalWordIsTheEncoding : Obligations.LegalWordIsTheEncoding := fun _ _ => encode_eq_of_decodeWord

end Sys2Proof
end

section
/-! The opcode map: the row of every instruction, and that no row accepts a word of an illegal group
(30_encoding.md R74, R76). -/

namespace Sys2Proof

/-! ### Rows -/

section
variable {w : Word} {r r' : OpcodeRow}

/-- Where a row's mask is all ones, the word has the row's bits. -/
theorem OpcodeRow.extractLsb'_eq_of_matches {start len : Nat} (h : r.Matches w)
    (hmask : r.mask.extractLsb' start len = BitVec.allOnes len) :
    w.extractLsb' start len = r.matchBits.extractLsb' start len := by
  rw [← h, BitVec.extractLsb'_and, hmask, BitVec.and_allOnes]

/-- Every row tests the whole major opcode (R73). -/
theorem OpcodeRow.fieldOp_eq_of_matches (hr : r ∈ opcodeTable) (h : r.Matches w) : fieldOp w = fieldOp r.matchBits :=
  have hmask : ∀ r ∈ opcodeTable, fieldOp r.mask = BitVec.allOnes 4 := by decide
  r.extractLsb'_eq_of_matches h (hmask r hr)

/-- Two rows that one word matches agree on the bits that both test. -/
theorem OpcodeRow.and_mask_eq_of_matches (h : r.Matches w) (h' : r'.Matches w) :
    r.matchBits &&& r'.mask = r'.matchBits &&& r.mask := by
  rw [← h, ← h']
  ac_rfl

end

/-- Two rows of the map differ in a bit that both test. -/
theorem eq_of_and_mask_eq : ∀ r ∈ opcodeTable, ∀ r' ∈ opcodeTable,
    r.matchBits &&& r'.mask = r'.matchBits &&& r.mask → r = r' := by
  decide

/-- The word an instruction encodes to matches the row of its pattern. -/
theorem matchesOneRow (i : Instr) : Laws.MatchesOneRow.Statement i := by
  cases i with
  | cls => exact Laws.MatchesOneRow.cls
  | ret => exact Laws.MatchesOneRow.ret
  | low => exact Laws.MatchesOneRow.low
  | high => exact Laws.MatchesOneRow.high
  | scd n => exact Laws.MatchesOneRow.scd n
  | jp nnn => exact Laws.MatchesOneRow.jp nnn
  | call nnn => exact Laws.MatchesOneRow.call nnn
  | seImm x nn => exact Laws.MatchesOneRow.seImm x nn
  | sneImm x nn => exact Laws.MatchesOneRow.sneImm x nn
  | seReg x y => exact Laws.MatchesOneRow.seReg x y
  | sneReg x y => exact Laws.MatchesOneRow.sneReg x y
  | ldImm x nn => exact Laws.MatchesOneRow.ldImm x nn
  | addImm x nn => exact Laws.MatchesOneRow.addImm x nn
  | ldReg x y => exact Laws.MatchesOneRow.ldReg x y
  | orReg x y => exact Laws.MatchesOneRow.orReg x y
  | andReg x y => exact Laws.MatchesOneRow.andReg x y
  | xorReg x y => exact Laws.MatchesOneRow.xorReg x y
  | addReg x y => exact Laws.MatchesOneRow.addReg x y
  | subReg x y => exact Laws.MatchesOneRow.subReg x y
  | shr x y => exact Laws.MatchesOneRow.shr x y
  | subnReg x y => exact Laws.MatchesOneRow.subnReg x y
  | shl x y => exact Laws.MatchesOneRow.shl x y
  | ldI nnn => exact Laws.MatchesOneRow.ldI nnn
  | jpV0 nnn => exact Laws.MatchesOneRow.jpV0 nnn
  | rnd x nn => exact Laws.MatchesOneRow.rnd x nn
  | drw x y n => exact Laws.MatchesOneRow.drw x y n
  | skp x => exact Laws.MatchesOneRow.skp x
  | sknp x => exact Laws.MatchesOneRow.sknp x
  | ldFromDelay x => exact Laws.MatchesOneRow.ldFromDelay x
  | waitKey x => exact Laws.MatchesOneRow.waitKey x
  | setDelay x => exact Laws.MatchesOneRow.setDelay x
  | beep x => exact Laws.MatchesOneRow.beep x
  | addI x => exact Laws.MatchesOneRow.addI x
  | ldGlyph x => exact Laws.MatchesOneRow.ldGlyph x
  | storeBcd x => exact Laws.MatchesOneRow.storeBcd x
  | storeRegs x => exact Laws.MatchesOneRow.storeRegs x
  | loadRegs x => exact Laws.MatchesOneRow.loadRegs x

/-- A word that decodes matches the row of the instruction's pattern. -/
theorem exists_row_of_decodeWord {w : Word} {i : Instr} (h : decodeWord w = .ok i) :
    ∃ r ∈ opcodeTable, r.pattern = i.pattern ∧ r.Matches w :=
  encode_eq_of_decodeWord h ▸ matchesOneRow i

/-! ### What the rows of a family test -/

theorem rows_zeroFamily : ∀ r ∈ opcodeTable, fieldOp r.matchBits = 0x0 →
    (r.mask = BitVec.allOnes 16 ∧ r.matchBits ∈ [0x00E0#16, 0x00EE#16, 0x00FE#16, 0x00FF#16]) ∨
      (fieldX r.mask = BitVec.allOnes 4 ∧ fieldX r.matchBits = 0x0) ∧
        (fieldY r.mask = BitVec.allOnes 4 ∧ fieldY r.matchBits = 0xC) := by
  decide

theorem rows_skipNibble : ∀ r ∈ opcodeTable, fieldOp r.matchBits = 0x5 ∨ fieldOp r.matchBits = 0x9 →
    fieldN r.mask = BitVec.allOnes 4 ∧ fieldN r.matchBits = 0x0 := by
  decide

theorem rows_aluNibble : ∀ r ∈ opcodeTable, fieldOp r.matchBits = 0x8 →
    fieldN r.mask = BitVec.allOnes 4 ∧
      fieldN r.matchBits ∉ [0x8#4, 0x9#4, 0xA#4, 0xB#4, 0xC#4, 0xD#4, 0xF#4] := by
  decide

theorem rows_keyByte : ∀ r ∈ opcodeTable, fieldOp r.matchBits = 0xE →
    fieldNN r.mask = BitVec.allOnes 8 ∧ fieldNN r.matchBits ∈ [0x9E#8, 0xA1#8] := by
  decide

theorem rows_miscByte : ∀ r ∈ opcodeTable, fieldOp r.matchBits = 0xF →
    fieldNN r.mask = BitVec.allOnes 8 ∧
      fieldNN r.matchBits ∈ [0x07#8, 0x0A#8, 0x15#8, 0x18#8, 0x1E#8, 0x29#8, 0x33#8, 0x55#8, 0x65#8] := by
  decide

/-- A word of the `0` family that matches a row is in no illegal group. -/
theorem not_group_zeroFamily_of_matches {w : Word} {r : OpcodeRow} (hr : r ∈ opcodeTable) (h : r.Matches w) :
    ¬ Rejected.zeroFamily.group w := by
  rintro ⟨ho, hcls, hret, hlow, hhigh, hscd⟩
  have hop := OpcodeRow.fieldOp_eq_of_matches hr h
  obtain ⟨hmask, hbits⟩ | ⟨⟨hmx, hx⟩, hmy, hy⟩ := rows_zeroFamily r hr (hop.symm.trans ho)
  · have hw : w = r.matchBits := by rw [← h, hmask, BitVec.and_allOnes]
    simp_all
  · have hwx : fieldX w = fieldX r.matchBits := r.extractLsb'_eq_of_matches h hmx
    have hwy : fieldY w = fieldY r.matchBits := r.extractLsb'_eq_of_matches h hmy
    exact hscd (encode_scd_eq ho (hwx.trans hx) (hwy.trans hy) ▸ encode_scd_mem_range (fieldN w))

/-- A word that matches a row is in no illegal group. -/
theorem not_group_of_matches {w : Word} {r : OpcodeRow} (hr : r ∈ opcodeTable) (h : r.Matches w) (e : Rejected) :
    ¬ e.group w := by
  have hop := OpcodeRow.fieldOp_eq_of_matches hr h
  have hN : fieldN r.mask = BitVec.allOnes 4 → fieldN w = fieldN r.matchBits := r.extractLsb'_eq_of_matches h
  have hNN : fieldNN r.mask = BitVec.allOnes 8 → fieldNN w = fieldNN r.matchBits := r.extractLsb'_eq_of_matches h
  cases e with
  | zeroFamily => exact not_group_zeroFamily_of_matches hr h
  | skipNibble =>
    rintro ⟨ho, hn⟩
    obtain ⟨hmask, hbits⟩ := rows_skipNibble r hr (hop ▸ ho)
    exact hn ((hN hmask).trans hbits)
  | aluNibble =>
    rintro ⟨ho, hn⟩
    obtain ⟨hmask, hbits⟩ := rows_aluNibble r hr (hop ▸ ho)
    exact hbits (hN hmask ▸ hn)
  | keyByte =>
    rintro ⟨ho, hb⟩
    obtain ⟨hmask, hbits⟩ := rows_keyByte r hr (hop ▸ ho)
    exact hb (hNN hmask ▸ hbits)
  | miscByte =>
    rintro ⟨ho, hb⟩
    obtain ⟨hmask, hbits⟩ := rows_miscByte r hr (hop ▸ ho)
    exact hb (hNN hmask ▸ hbits)

/-! ### Legal and illegal words -/

section
variable {w : Word}

theorem legalWord_iff : legalWord w = true ↔ ∃ r ∈ opcodeTable, r.Matches w := by
  simp only [legalWord, List.any_eq_true, decide_eq_true_eq]

/-- A word decodes exactly when it matches a row. -/
theorem exists_decodeWord_iff : (∃ i, decodeWord w = .ok i) ↔ ∃ r ∈ opcodeTable, r.Matches w := by
  constructor
  · rintro ⟨i, hi⟩
    obtain ⟨r, hr, -, h⟩ := exists_row_of_decodeWord hi
    exact ⟨r, hr, h⟩
  · rintro ⟨r, hr, h⟩
    cases hd : decodeWord w with
    | ok i => exact ⟨i, rfl⟩
    | error e => exact absurd (group_of_decodeWord hd) (not_group_of_matches hr h e)

/-- A word that matches no row is rejected. -/
theorem decodeWord_error_of_no_row (h : ∀ r ∈ opcodeTable, ¬ r.Matches w) : ∃ e, decodeWord w = .error e := by
  cases hd : decodeWord w with
  | ok i =>
    obtain ⟨r, hr, hm⟩ := exists_decodeWord_iff.1 ⟨i, hd⟩
    exact absurd hm (h r hr)
  | error e => exact ⟨e, rfl⟩

/-- A word matches no row exactly when it is in an illegal group. -/
theorem no_row_iff_group : (∀ r ∈ opcodeTable, ¬ r.Matches w) ↔ ∃ e : Rejected, e.group w := by
  constructor
  · intro h
    obtain ⟨e, he⟩ := decodeWord_error_of_no_row h
    exact ⟨e, group_of_decodeWord he⟩
  · rintro ⟨e, he⟩ r hr hm
    exact not_group_of_matches hr hm e he

/-- The five groups, one by one. -/
theorem Rejected.exists_group_iff : (∃ e : Rejected, e.group w) ↔
    zeroFamily.group w ∨ skipNibble.group w ∨ aluNibble.group w ∨ keyByte.group w ∨ miscByte.group w := by
  constructor
  · rintro ⟨_ | _ | _ | _ | _, h⟩
    · exact .inl h
    · exact .inr (.inl h)
    · exact .inr (.inr (.inl h))
    · exact .inr (.inr (.inr (.inl h)))
    · exact .inr (.inr (.inr (.inr h)))
  · rintro (h | h | h | h | h) <;> exact ⟨_, h⟩

end

/-- Settles O4: the decoder accepts a word exactly when a row does, and two rows that overlap are one. -/
theorem decoderFollowsTheOpcodeMap : Obligations.DecoderFollowsTheOpcodeMap :=
  ⟨rfl, fun _ => exists_decodeWord_iff.trans legalWord_iff.symm, fun _ _ => exists_row_of_decodeWord,
    fun _ r r' hr hr' h h' => eq_of_and_mask_eq r hr r' hr' (OpcodeRow.and_mask_eq_of_matches h h')⟩

/-- Settles O1: the decoder runs on each word. -/
theorem knownWordsDecode : Obligations.KnownWordsDecode := by
  unfold Obligations.KnownWordsDecode
  decide

end Sys2Proof
end

section
/-! A step of a core that is not halted, by what its two bytes decode to (30_encoding.md R75). -/

namespace Sys2Proof.Machine

section
variable {s : State} (hh : s.halted = false)
include hh

theorem step_of_decoded_ok {i : Instr} (hd : s.decoded = .ok i) : step s = exec i s.begin := by
  have hf : decode s.fetch.1 s.fetch.2 = .ok i := hd
  simp [step, hh, hf]

theorem step_of_decoded_error {e : Rejected} (hd : s.decoded = .error e) :
    step s = .next (s.begin.raiseIllegal s.fetch.1 s.fetch.2) := by
  have hf : decode s.fetch.1 s.fetch.2 = .error e := hd
  simp [step, hh, hf]

end

/-- Settles O6: the state a step begins with is the one that the statement writes out. -/
theorem stepRunsTheDecodedInstruction : Obligations.StepRunsTheDecodedInstruction :=
  fun _ _ hh hd => step_of_decoded_ok hh hd

/-- Settles O5: a word that matches no row is in an illegal group, and a step that fetches it raises. -/
theorem illegalWordsAreTheFiveGroups : Obligations.IllegalWordsAreTheFiveGroups := by
  refine ⟨fun w => no_row_iff_group.trans Rejected.exists_group_iff, fun s hh h => ?_⟩
  obtain ⟨e, he⟩ := decodeWord_error_of_no_row h
  exact ⟨_, step_of_decoded_error hh he, rfl, rfl, rfl⟩

end Sys2Proof.Machine
end

section
/-! Control flow: the jumps and skips as frames of the pc, the call and the return as their rules on the stack
(40_control_flow.md). -/

namespace Sys2Proof

/-- `5xyn`, whatever `n` is (30_encoding.md R76). -/
theorem decodeWord_seReg (x y : Reg) (n : Nibble) :
    decodeWord (0x5#4 ++ x ++ y ++ n) = if n = 0 then .ok (.seReg x y) else .error .skipNibble := by
  simp [decodeWord, decodeSkipReg]

/-- `9xyn`, whatever `n` is (30_encoding.md R76). -/
theorem decodeWord_sneReg (x y : Reg) (n : Nibble) :
    decodeWord (0x9#4 ++ x ++ y ++ n) = if n = 0 then .ok (.sneReg x y) else .error .skipNibble := by
  simp [decodeWord, decodeSkipReg]

end Sys2Proof

namespace Sys2Proof.Machine

/-! ### Skips (40_control_flow.md R108) -/

/-- A skip on a condition, as a frame of the pc. -/
theorem State.writesPc_skipIf (s : State) {c : Bool} {a : Addr} (h : (s.skipIf c).pc = a) :
    s.writesPc (s.skipIf c) a :=
  h ▸ s.writesPc_setPc _

theorem State.skipIf_beq_pc (s : State) (b c : Byte) : (s.skipIf (b == c)).pc = if b = c then s.pc + 2 else s.pc :=
  if_congr beq_iff_eq rfl rfl

theorem State.skipIf_bne_pc (s : State) (b c : Byte) : (s.skipIf (b != c)).pc = if b = c then s.pc else s.pc + 2 :=
  (if_congr bne_iff_ne rfl rfl).trans (ite_not _ _ _)

/-! ### The call and the return, by what is on the stack -/

/-- A return with `k + 1` entries in use goes to entry `k` (40_control_flow.md R100). -/
theorem execRet_of_succ {s : State} {k : Nat} (hk : k < 16) (h : s.sp.val = k + 1) :
    exec .ret s = .next { s with sp := ⟨k, by omega⟩, pc := s.stack[k].setWidth 12 } := by
  have hpos : exec .ret s = _ := execRet_of_pos s (by omega)
  simpa [h] using hpos

/-! ### The statements -/

/-- Settles O21: the rule of a call on a stack with room, and on a full one. -/
theorem callPushesTheReturnAddress : Obligations.CallPushesTheReturnAddress := by
  intro nnn s
  refine ⟨decodeWord_encode (.call nnn), fun hroom => ?_, fun hfull => ?_⟩
  · refine ⟨_, execCall_of_lt nnn s hroom, rfl, rfl, Vector.getElem_set_self hroom, fun k hk => ?_, fun _ => rfl, rfl⟩
    exact Vector.getElem_set_ne hroom k.isLt hk.symm
  · exact ⟨_, execCall_of_full nnn s hfull, rfl, rfl, rfl, rfl, rfl⟩

/-- Settles O22: the rule of a return that finds an entry, and of one that finds none. -/
theorem returnPopsTheStack : Obligations.ReturnPopsTheStack := by
  refine ⟨decodeWord_encode .ret, fun s => ⟨fun hpos => ?_, fun hempty => ?_⟩⟩
  · exact ⟨_, execRet_of_pos s hpos.ne', rfl, rfl, fun _ => rfl, rfl⟩
  · exact ⟨_, execRet_of_empty s hempty, rfl, rfl, rfl, rfl, rfl⟩

/-- Settles O23: the entry the return reads is the one the call wrote. -/
theorem returnUndoesCall : Obligations.ReturnUndoesCall := by
  intro nnn s t u hroom hcall hstack hsp
  obtain ⟨hfull, -⟩ | ⟨_, rfl⟩ := execCall_cases hcall
  · exact absurd hfull hroom.ne
  · have hentry : u.stack[s.sp.val] = s.pc.setWidth 16 := by
      simp only [hstack, Vector.getElem_set_self]
    exact ⟨_, execRet_of_succ hroom (congrArg Fin.val hsp), by simp [hentry], rfl⟩

/-- Settles O24: each skip compares the register with `nn`, and writes the pc alone. -/
theorem skipsOnImmediate : Obligations.SkipsOnImmediate := fun x nn s =>
  ⟨decodeWord_encode (.seImm x nn), decodeWord_encode (.sneImm x nn),
    ⟨_, rfl, s.writesPc_skipIf (s.skipIf_beq_pc (s.reg x) nn)⟩,
    ⟨_, rfl, s.writesPc_skipIf (s.skipIf_bne_pc (s.reg x) nn)⟩⟩

/-- Settles O25: each skip compares the two registers, and writes the pc alone; a register is equal to itself. -/
theorem skipsOnRegister : Obligations.SkipsOnRegister := fun x y s =>
  ⟨decodeWord_seReg x y, decodeWord_sneReg x y,
    ⟨_, rfl, s.writesPc_skipIf (s.skipIf_beq_pc (s.reg x) (s.reg y))⟩,
    ⟨_, rfl, s.writesPc_skipIf (s.skipIf_bne_pc (s.reg x) (s.reg y))⟩,
    ⟨_, rfl, (s.skipIf_beq_pc (s.reg x) (s.reg x)).trans (if_pos rfl)⟩,
    ⟨_, rfl, (s.skipIf_bne_pc (s.reg x) (s.reg x)).trans (if_pos rfl)⟩⟩

/-- Settles O20: each jump is a write of the pc; the target of `Bnnn` is computed on 12 bits. -/
theorem jumpsSetThePc : Obligations.JumpsSetThePc := by
  intro nnn s
  refine ⟨decodeWord_encode (.jp nnn), decodeWord_encode (.jpV0 nnn), ⟨_, rfl, s.writesPc_setPc nnn⟩, ?_⟩
  have htarget : s.v0Addr nnn = BitVec.ofNat 12 ((nnn.toNat + (s.reg 0).toNat) % 4096) :=
    (s.v0Addr_eq nnn).trans (BitVec.eq_of_toNat_eq (by simp))
  exact ⟨_, rfl, htarget ▸ s.writesPc_setPc (s.v0Addr nnn)⟩

end Sys2Proof.Machine
end

section
/-! Register and arithmetic instructions: each is one register write, or one result with its flag, whose value the laws of
the flag-carrying results give (41_alu.md). -/

namespace Sys2Proof.Machine

/-! ### The results that carry a flag (41_alu.md R126) -/

theorem flagByte_eq_one_iff (f : Bool) : flagByte f = 1 ↔ f = true := by
  cases f <;> decide

/-- Bit 7 of a byte is set exactly in its upper half. -/
theorem getLsbD_seven (a : Byte) : a.getLsbD 7 = decide (128 ≤ a.toNat) :=
  a.msb_eq_getLsbD_last.symm.trans a.msb_eq_decide

/-- Half the value, with bit 0 (41_alu.md R129). -/
theorem shiftRight_eq (a : Byte) :
    shiftRight a = (BitVec.ofNat 8 (a.toNat / 2), BitVec.ofNat 8 (a.toNat % 2)) := by
  refine Prod.ext (BitVec.eq_of_toNat_eq ?_) ?_
  · have := a.isLt
    simp only [shiftRight, BitVec.toNat_ushiftRight, BitVec.toNat_ofNat]
    omega
  · obtain h | h := Nat.mod_two_eq_zero_or_one a.toNat <;> simp [shiftRight, flagByte, BitVec.getLsbD, h]

/-- Twice the value mod 256, with bit 7 (41_alu.md R131). -/
theorem shiftLeft_eq (a : Byte) :
    shiftLeft a = (BitVec.ofNat 8 (a.toNat * 2), BitVec.ofNat 8 (a.toNat / 128)) := by
  refine Prod.ext (BitVec.eq_of_toNat_eq ?_) ?_
  · simp [shiftLeft, Nat.shiftLeft_eq]
  · have hlt := a.isLt
    rw [shiftLeft, getLsbD_seven]
    by_cases h : 128 ≤ a.toNat
    · rw [decide_eq_true h, show a.toNat / 128 = 1 by omega]
      rfl
    · rw [decide_eq_false h, show a.toNat / 128 = 0 by omega]
      rfl

/-- A byte added to itself: twice the value, and the carry is bit 7 (41_alu.md R133). -/
theorem addCarry_self (a : Byte) : addCarry a a = (a * 2, flagByte (a.getLsbD 7)) := by
  have hcarry : 256 ≤ a.toNat + a.toNat ↔ 128 ≤ a.toNat := by omega
  rw [addCarry, getLsbD_seven, decide_eq_decide.mpr hcarry, ← Nat.mul_two, BitVec.ofNat_mul, BitVec.ofNat_toNat]
  rfl

/-- A byte subtracted from itself: 0, and no underflow (41_alu.md R133). -/
theorem subBorrow_self (a : Byte) : subBorrow a a = (0, 0) := by
  simp [subBorrow_eq]

/-! ### A result and its flag in the registers (10_state.md R21) -/

/-- A result and its flag, given by a law of the pair, as a frame. -/
theorem State.writesRegFlag_of_eq (s : State) (x : Reg) {rf : Byte × Byte} {b f : Byte} (h : rf = (b, f)) :
    s.writesRegFlag (s.setRegFlag x rf) x b f :=
  h ▸ s.writesRegFlag_setRegFlag x b f

/-- Where the destination is not VF, it keeps the result and VF holds the flag. -/
theorem State.reg_setRegFlag_of_eq (s : State) {x : Reg} (hx : x ≠ regVF) {rf : Byte × Byte} {b f : Byte}
    (h : rf = (b, f)) : (s.setRegFlag x rf).reg x = b ∧ (s.setRegFlag x rf).reg regVF = f := by
  obtain ⟨hflag, hresult, -⟩ := s.writesRegFlag_of_eq x h
  exact ⟨hresult hx, hflag⟩

/-! ### The statements -/

/-- Settles O29: the sum narrows to the machine's, and the carry is that of the unbounded sum. -/
theorem addSetsTheCarry : Obligations.AddSetsTheCarry := fun x y s =>
  ⟨decodeWord_encode (.addReg x y), _, rfl, s.writesRegFlag_of_eq x (addCarry_eq (s.reg x) (s.reg y))⟩

/-- Settles O30: the difference narrows to the machine's, and is negative exactly when the first operand is less. -/
theorem subtractSetsTheUnderflowFlag : Obligations.SubtractSetsTheUnderflowFlag := fun x y s =>
  ⟨decodeWord_encode (.subReg x y), decodeWord_encode (.subnReg x y),
    ⟨_, rfl, s.writesRegFlag_of_eq x (subBorrow_eq (s.reg x) (s.reg y))⟩,
    ⟨_, rfl, s.writesRegFlag_of_eq x (subBorrow_eq (s.reg y) (s.reg x))⟩⟩

/-- Settles O31: a shift is a halving or a doubling, and the bit it loses is the remainder or bit 7. -/
theorem shiftsSetTheBitShiftedOut : Obligations.ShiftsSetTheBitShiftedOut := fun x y s =>
  ⟨decodeWord_encode (.shr x y), decodeWord_encode (.shl x y),
    ⟨_, rfl, s.writesRegFlag_of_eq x (shiftRight_eq (s.reg x))⟩,
    ⟨_, rfl, s.writesRegFlag_of_eq x (shiftLeft_eq (s.reg x))⟩⟩

/-- Settles O32: a register write of the masked byte, each of whose bits is a bit of the mask. -/
theorem randomByteIsMasked : Obligations.RandomByteIsMasked := by
  intro x nn s
  refine ⟨decodeWord_encode (.rnd x nn), _, rfl, s.writesReg_setReg x (s.env.rand8 &&& nn), fun k hk => ?_⟩
  rw [State.reg_setReg_same, BitVec.getLsbD_and, Bool.and_eq_true] at hk
  exact hk.2

/-- Settles O33: copy, OR and AND write back what the register holds; the others are the laws of one operand used
twice. -/
theorem sameRegisterTwice : Obligations.SameRegisterTwice := by
  intro x s hx
  obtain ⟨hsum, hcarry⟩ := s.reg_setRegFlag_of_eq hx (addCarry_self (s.reg x))
  have hdifference := s.reg_setRegFlag_of_eq hx (subBorrow_self (s.reg x))
  refine ⟨⟨_, rfl, s.setReg_self x⟩, ⟨_, rfl, ?or⟩, ⟨_, rfl, ?and⟩, ⟨_, rfl, ?xor⟩,
    ⟨_, rfl, hsum, hcarry ▸ flagByte_eq_one_iff _⟩, ⟨_, rfl, hdifference⟩, ⟨_, rfl, hdifference⟩⟩
  case or => rw [BitVec.or_self, s.setReg_self]
  case and => rw [BitVec.and_self, s.setReg_self]
  case xor => rw [State.reg_setReg_same, BitVec.xor_self]; rfl

/-- Settles O26: each is a register write; the sum mod 256 is taken without its carry. -/
theorem immediateLoadAndAdd : Obligations.ImmediateLoadAndAdd := by
  intro x nn s
  refine ⟨decodeWord_encode (.ldImm x nn), decodeWord_encode (.addImm x nn), ⟨_, rfl, s.writesReg_setReg x nn⟩, ?_⟩
  have hsum : (addCarry (s.reg x) nn).1 = s.reg x + nn := congrArg Prod.fst (addCarry_eq (s.reg x) nn)
  exact ⟨_, rfl, hsum ▸ s.writesReg_setReg x (addCarry (s.reg x) nn).1⟩

/-- Settles O27: each is a register write of its result. -/
theorem copyAndXorRegisters : Obligations.CopyAndXorRegisters := fun x y s =>
  ⟨decodeWord_encode (.ldReg x y), decodeWord_encode (.andReg x y), decodeWord_encode (.xorReg x y),
    ⟨_, rfl, s.writesReg_setReg x (s.reg y)⟩, ⟨_, rfl, s.writesReg_setReg x (s.reg x &&& s.reg y)⟩,
    ⟨_, rfl, s.writesReg_setReg x (s.reg x ^^^ s.reg y)⟩⟩

/-- Settles O28: a register write of the result, so VF is another register where it is not the destination. -/
theorem orRegisters : Obligations.OrRegisters := fun x y s =>
  ⟨decodeWord_encode (.orReg x y), ⟨_, rfl, s.writesReg_setReg x (s.reg x ||| s.reg y)⟩,
    fun hx => ⟨_, rfl, s.reg_setReg_other (s.reg x ||| s.reg y) hx.symm⟩⟩

end Sys2Proof.Machine
end

section
/-! Index register and memory instructions: each is a write of the index register, the three digits of a byte, or a
block transfer, whose value and bytes the laws of the operands and of the blocks give (42_index_memory.md). -/

namespace Sys2Proof.Machine

/-! ### Operands, on the naturals (42_index_memory.md R146) -/

/-- The address of a glyph never wraps (42_index_memory.md R142). -/
theorem toNat_glyphAddr (b : Byte) : (glyphAddr b).toNat = b.toNat * 5 := by
  have hlt : b.toNat * 5 < 4096 := by omega
  rw [glyphAddr, BitVec.toNat_ofNat, Nat.mod_eq_of_lt hlt]

theorem State.toNat_indexPlusReg (s : State) (x : Reg) :
    (s.indexPlusReg x).toNat = (s.i.toNat + (s.reg x).toNat) % 4096 := by
  simp [State.indexPlusReg]

theorem State.toNat_indexPast (s : State) (x : Reg) : (s.indexPast x).toNat = (s.i.toNat + x.toNat + 1) % 4096 := by
  simp [State.indexPast, State.indexAddr, Nat.add_assoc]

theorem State.indexAddr_zero (s : State) : s.indexAddr 0 = s.i :=
  BitVec.add_zero s.i

/-! ### The digits of a byte (42_index_memory.md R143) -/

theorem toNat_bcdHundreds (b : Byte) : (bcdHundreds b).toNat = b.toNat / 100 :=
  Nat.mod_eq_of_lt (by omega)

theorem toNat_bcdTens (b : Byte) : (bcdTens b).toNat = b.toNat / 10 % 10 :=
  Nat.mod_eq_of_lt (by omega)

theorem toNat_bcdOnes (b : Byte) : (bcdOnes b).toNat = b.toNat % 10 :=
  Nat.mod_eq_of_lt (by omega)

/-! ### What the stores leave in memory -/

/-- A byte written at an offset from `I` stays when another offset is written. -/
theorem State.readByte_writeByte_indexAddr (s u : State) {j k : Nat} (hj : j < 4096) (hk : k < 4096) (h : j ≠ k)
    (b : Byte) : (u.writeByte (s.indexAddr k) b).readByte (s.indexAddr j) = u.readByte (s.indexAddr j) :=
  u.readByte_writeByte_other b fun he => h (s.indexAddr_inj hj hk he)

/-- A BCD store leaves the three digits at `I`, `I + 1` and `I + 2` (42_index_memory.md R143). -/
theorem execStoreBcd_readByte {x : Reg} {s t : State} (h : exec (.storeBcd x) s = .next t) (hwf : Memory.wf s.mem) :
    (t.readByte (s.indexAddr 0)).toNat = (s.reg x).toNat / 100 ∧
      (t.readByte (s.indexAddr 1)).toNat = (s.reg x).toNat / 10 % 10 ∧
      (t.readByte (s.indexAddr 2)).toNat = (s.reg x).toNat % 10 := by
  cases h
  have hwf1 := s.writeByte_wf (s.indexAddr 0) (bcdHundreds (s.reg x)) hwf
  have hwf2 := State.writeByte_wf _ (s.indexAddr 1) (bcdTens (s.reg x)) hwf1
  refine ⟨?hundreds, ?tens, ?ones⟩
  case hundreds =>
    rw [s.readByte_writeByte_indexAddr _ (by decide) (by decide) (by decide),
      s.readByte_writeByte_indexAddr _ (by decide) (by decide) (by decide), s.readByte_writeByte_same _ _ hwf,
      toNat_bcdHundreds]
  case tens =>
    rw [s.readByte_writeByte_indexAddr _ (by decide) (by decide) (by decide), State.readByte_writeByte_same _ _ _ hwf1,
      toNat_bcdTens]
  case ones => rw [State.readByte_writeByte_same _ _ _ hwf2, toNat_bcdOnes]

/-- A block store leaves each register up to `x` at its offset from `I` (42_index_memory.md R144). -/
theorem execStoreRegs_readByte {x k : Reg} {s t : State} (h : exec (.storeRegs x) s = .next t) (hwf : Memory.wf s.mem)
    (hk : k ≤ x) : t.readByte (s.i + k.setWidth 12) = s.reg k := by
  cases h
  have hblock := s.readByte_storeBlock (x.toNat + 1) x.isLt hwf k.toNat (Nat.lt_succ_of_le hk)
  rwa [s.indexAddr_reg, BitVec.ofNat_toNat, BitVec.setWidth_eq] at hblock

/-- A block load leaves in each register up to `x` the byte at its offset from `I`, and keeps the registers above
(42_index_memory.md R145). -/
theorem execLoadRegs_reg {x : Reg} {s t : State} (h : exec (.loadRegs x) s = .next t) (k : Reg) :
    t.reg k = if k ≤ x then s.readByte (s.i + k.setWidth 12) else s.reg k := by
  cases h
  refine (s.reg_loadBlock (x.toNat + 1) x.isLt k).trans ?_
  rw [s.indexAddr_reg]
  exact if_congr Nat.lt_succ_iff rfl rfl

/-! ### The statements -/

/-- Settles O37: a block store changes memory alone, its bytes are its registers, and `I` is then moved. -/
theorem blockStoreWritesRegisters : Obligations.BlockStoreWritesRegisters := by
  intro x s
  refine ⟨decodeWord_encode (.storeRegs x), _, rfl, ?frame, s.toNat_indexPast x,
    fun _ => execStoreRegs_readByte_other rfl, fun hwf _ => execStoreRegs_readByte rfl hwf⟩
  case frame => exact congrArg (·.setI (s.indexPast x)) (s.storeBlock_eq (x.toNat + 1))

/-- Settles O38: a block load changes the registers alone, each from its byte, and `I` is then moved. -/
theorem blockLoadReadsRegisters : Obligations.BlockLoadReadsRegisters := by
  intro x s
  have hframe := congrArg (·.setI (s.indexPast x)) (s.loadBlock_eq (x.toNat + 1))
  refine ⟨decodeWord_encode (.loadRegs x), _, rfl, hframe, s.toNat_indexPast x, fun k hk => ?loaded,
    fun k hk => ?kept, State.readByte_eq_of_mem (congrArg State.mem hframe :)⟩
  case loaded => exact (execLoadRegs_reg rfl k).trans (if_pos hk)
  case kept => exact (execLoadRegs_reg rfl k).trans (if_neg (BitVec.not_le.mpr hk))

/-- Settles O39: the load reads the bytes that the store left, at the same addresses, and `I` ends where the store left
it. -/
theorem blockLoadUndoesBlockStore : Obligations.BlockLoadUndoesBlockStore := by
  intro x s t u hwf hstore hmem hi
  refine ⟨_, rfl, fun k hk => ?_, ?past⟩
  · calc _ = u.readByte (u.i + k.setWidth 12) := (execLoadRegs_reg rfl k).trans (if_pos hk)
      _ = t.readByte (s.i + k.setWidth 12) := by rw [hi, State.readByte_eq_of_mem hmem]
      _ = s.reg k := execStoreRegs_readByte hstore hwf hk
  case past =>
    cases hstore
    exact congrArg (· + BitVec.ofNat 12 (x.toNat + 1)) hi

/-- Settles O36: the three writes change memory alone, and each digit stays where it was written. -/
theorem bcdStoresThreeDigits : Obligations.BcdStoresThreeDigits := by
  intro x s
  obtain ⟨t, hexec⟩ : ∃ t, exec (.storeBcd x) s = .next t := ⟨_, rfl⟩
  refine ⟨decodeWord_encode (.storeBcd x), t, hexec, ?frame, fun a h0 h1 h2 => ?other, fun hwf => ?digits⟩
  case frame => cases hexec; rfl
  case other =>
    refine execStoreBcd_readByte_other hexec fun k hk => ?_
    obtain rfl | rfl | rfl : k = 0 ∨ k = 1 ∨ k = 2 := by omega
    · rwa [s.indexAddr_zero]
    · exact h1
    · exact h2
  case digits =>
    have hdigits := execStoreBcd_readByte hexec hwf
    rw [s.indexAddr_zero] at hdigits
    exact hdigits

/-- Settles O35: a write of the index register; the sum is taken on its 12 bits. -/
theorem indexAdd : Obligations.IndexAdd := fun x s =>
  ⟨decodeWord_encode (.addI x), _, rfl, s.writesI_setI (s.indexPlusReg x), s.toNat_indexPlusReg x⟩

/-- Settles O34: each load is a write of the index register, and the product is below 4096. -/
theorem indexLoads : Obligations.IndexLoads := fun nnn x s =>
  ⟨decodeWord_encode (.ldI nnn), decodeWord_encode (.ldGlyph x), ⟨_, rfl, s.writesI_setI nnn⟩,
    ⟨_, rfl, s.writesI_setI (glyphAddr (s.reg x)), toNat_glyphAddr (s.reg x)⟩⟩

end Sys2Proof.Machine
end

section
/-! Display instructions: what clearing, a scroll and a sprite do to each cell, and which 2x2 blocks they keep uniform
(43_display.md). -/

namespace Sys2Proof.Machine

/-! ### The cells of a sprite (43_display.md R165) -/

/-- A cell differs after distinct cells are composited exactly where it is one of them (43_display.md R166). -/
theorem Display.cell_composite_ne_iff {l : List (Nat × Nat)} (hl : l.Nodup) (hg : ∀ rc ∈ l, rc.1 < 64 ∧ rc.2 < 128)
    (d : Display) (coll : Bool) (r c : Nat) :
    Display.cell (Display.composite l d coll).1 r c ≠ Display.cell d r c ↔ (r, c) ∈ l := by
  rw [Display.cell_composite l d coll r c hg, hl.count]
  by_cases hm : (r, c) ∈ l <;> simp [hm]

/-- The cells a sprite toggles are those it covers. -/
theorem State.mem_spriteCells_iff_spriteCovers {s : State} {x y : Reg} {n : Nibble} {r c : Nat} :
    (r, c) ∈ s.spriteCells (s.reg x) (s.reg y) n.toNat ↔ s.spriteCovers x y n r c := by
  simp only [State.mem_spriteCells, mem_pixelCells, State.spriteCovers, State.indexAddr]
  cases s.ext <;> rfl

/-- No cell is toggled twice by one draw (43_display.md R165). -/
theorem State.nodup_drawnCells (s : State) (x y : Reg) (n : Nibble) :
    (s.spriteCells (s.reg x) (s.reg y) n.toNat).Nodup :=
  s.nodup_spriteCells _ _ _ n.isLt.le

/-- A sprite covers cells of the grid alone. -/
theorem State.spriteCovers.in_grid {s : State} {x y : Reg} {n : Nibble} {r c : Nat} (h : s.spriteCovers x y n r c) :
    r < 64 ∧ c < 128 :=
  s.spriteCells_in_grid _ _ _ _ (State.mem_spriteCells_iff_spriteCovers.2 h)

/-- The collision of a draw: a covered cell was foreground (43_display.md R166). -/
theorem State.drawSprite_collision_iff {s : State} {x y : Reg} {n : Nibble} :
    (s.drawSprite x y n).2 = true ↔ ∃ r c, s.spriteCovers x y n r c ∧ Display.cell s.cells r c = true := by
  rw [State.drawSprite, Display.composite_collision _ _ _ (s.nodup_drawnCells x y n) (s.spriteCells_in_grid _ _ _),
    Bool.false_or, List.any_eq_true]
  simp only [Prod.exists, State.mem_spriteCells_iff_spriteCovers]

/-- What a sprite covers depends on the mode, memory, `I` and the two coordinates alone. -/
theorem State.spriteCovers_congr {s u : State} {x y : Reg} (hext : u.ext = s.ext) (hmem : u.mem = s.mem) (hi : u.i = s.i)
    (hx : u.reg x = s.reg x) (hy : u.reg y = s.reg y) (n : Nibble) (r c : Nat) :
    u.spriteCovers x y n r c ↔ s.spriteCovers x y n r c := by
  simp only [State.spriteCovers, State.readByte_eq_of_mem hmem, hext, hi, hx, hy]

/-- In normal mode a sprite covers a 2x2 block whole or not at all (43_display.md R160). -/
theorem State.spriteCovers_block {s : State} (hext : s.ext = false) (x y : Reg) (n : Nibble) (r c : Nat) :
    s.spriteCovers x y n (2 * (r / 2)) (2 * (c / 2)) ↔ s.spriteCovers x y n r c := by
  simp [State.spriteCovers, hext]

/-- VF after `Dxys`: 1 exactly when a covered cell was foreground (43_display.md R166). -/
theorem execDrw_vf_iff {x y : Reg} {n : Nibble} {s t : State} (h : exec (.drw x y n) s = .next t) :
    t.reg regVF = 1 ↔ ∃ r c, s.spriteCovers x y n r c ∧ Display.cell s.cells r c = true := by
  cases h
  rw [State.reg_setReg_same, flagByte_eq_one_iff, State.drawSprite_collision_iff]

/-- A cell differs after `Dxys` exactly where the sprite covers it (43_display.md R165). -/
theorem execDrw_cell_ne_iff {x y : Reg} {n : Nibble} {s t : State} (h : exec (.drw x y n) s = .next t) {r c : Nat} :
    Display.cell t.cells r c ≠ Display.cell s.cells r c ↔ s.spriteCovers x y n r c := by
  cases h
  exact (Display.cell_composite_ne_iff (s.nodup_drawnCells x y n) (s.spriteCells_in_grid _ _ _) _ _ r c).trans
    State.mem_spriteCells_iff_spriteCovers

/-! ### Uniform blocks (43_display.md R167) -/

/-- A cleared display is background everywhere. -/
theorem Display.cell_replicate_zero (r c : Nat) : Display.cell (Vector.replicate 64 0) r c = false := by
  rw [Display.cell, Vector.getElem?_replicate]
  split_ifs <;> exact BitVec.getLsbD_zero

/-- A scroll by an even number of cell rows moves blocks to blocks. -/
theorem Display.uniformBlocks.scrollDown {d : Display} (h : Display.uniformBlocks d) (m : Nat) :
    Display.uniformBlocks (Display.scrollDown d (2 * m)) := by
  intro r c hr hc
  rw [Display.cell_scrollDown _ _ _ _ hr, Display.cell_scrollDown _ _ _ _ (by omega)]
  have hfrom : 2 * m ≤ 2 * (r / 2) ↔ 2 * m ≤ r := by omega
  have hrow : 2 * (r / 2) - 2 * m = 2 * ((r - 2 * m) / 2) := by omega
  rw [h (r - 2 * m) c (by omega) hc, hrow, decide_eq_decide.2 hfrom]

/-- A scroll moves an even number of cell rows in normal mode, and in extended mode where its operand is even. -/
theorem scrollRows_even {ext : Bool} {n : Nibble} (h : ext = true → n.toNat % 2 = 0) : ∃ m, scrollRows ext n = 2 * m := by
  cases ext with
  | false => exact ⟨n.toNat, rfl⟩
  | true => exact ⟨n.toNat / 2, (Nat.mul_div_cancel' (Nat.dvd_of_mod_eq_zero (h rfl))).symm⟩

/-- Two cells that both differ from a third, or both equal it, are equal. -/
theorem eq_of_ne_iff_ne : ∀ {a b c : Bool}, (a ≠ c ↔ b ≠ c) → a = b := by
  decide

/-- Flipping whole blocks keeps the blocks uniform. -/
theorem Display.uniformBlocks.of_flips {d e : Display} (h : Display.uniformBlocks d) {p : Nat → Nat → Prop}
    (hflip : ∀ r c, Display.cell e r c ≠ Display.cell d r c ↔ p r c)
    (hp : ∀ r c, p (2 * (r / 2)) (2 * (c / 2)) ↔ p r c) : Display.uniformBlocks e := by
  intro r c hr hc
  have hsame := ((hflip (2 * (r / 2)) (2 * (c / 2))).trans (hp r c)).trans (hflip r c).symm
  rw [← h r c hr hc] at hsame
  exact (eq_of_ne_iff_ne hsame).symm

/-! ### The statements -/

/-- Settles O44: the instructions that may write a cell one by one; an even scroll moves blocks to blocks, and a
normal-mode draw flips whole blocks. -/
theorem uniformBlocksStayUniform : Obligations.UniformBlocksStayUniform := by
  intro i s t huniform h hexcluded
  by_cases hw : Part.cells ∈ i.writes
  · obtain rfl | ⟨n, rfl⟩ | ⟨x, y, n, rfl⟩ := Instr.cells_mem_writes.1 hw
    · cases h
      intro r c _ _
      rw [Display.cell_replicate_zero, Display.cell_replicate_zero]
    · obtain ⟨m, hm⟩ := scrollRows_even fun hext => (hexcluded hext).2 n rfl
      cases h
      exact hm ▸ huniform.scrollDown m
    · have hext : s.ext = false := Bool.eq_false_iff.2 fun hext => (hexcluded hext).1 x y n rfl
      exact huniform.of_flips (fun _ _ => execDrw_cell_ne_iff h) (s.spriteCovers_block hext x y n)
  · have hsame : t.cells = s.cells := exec_differsOnlyIn h .cells hw
    exact hsame ▸ huniform

/-- Settles O41: a scroll is a change of the cells alone, each of which comes from the rows above. -/
theorem scrollMovesRowsDown : Obligations.ScrollMovesRowsDown := by
  intro n s
  refine ⟨decodeWord_encode (.scd n), _, rfl, rfl, State.readByte_eq_of_mem rfl, fun r c hr _ => ?_⟩
  exact (Display.cell_scrollDown s.cells (scrollRows s.ext n) r c hr).trans (Bool.if_false_right _ _).symm

/-- Settles O42: the cells that flip are the distinct cells of the sprite, and VF is their collision. -/
theorem spriteFlipsTheCellsItCovers : Obligations.SpriteFlipsTheCellsItCovers := by
  intro x y n s
  obtain ⟨t, hexec⟩ : ∃ t, exec (.drw x y n) s = .next t := ⟨_, rfl⟩
  refine ⟨decodeWord_encode (.drw x y n), t, hexec, ?frame, fun _ _ _ _ => execDrw_cell_ne_iff hexec, ?flag,
    (execDrw_vf_iff hexec).trans ?collision, fun z hz => exec_reg_other hexec hz,
    State.readByte_eq_of_mem (exec_differsOnlyIn hexec .memory (by simp [Instr.writes]))⟩
  case frame => cases hexec; rfl
  case flag =>
    cases hexec
    rw [State.reg_setReg_same]
    cases (s.drawSprite x y n).2 with
    | false => exact .inr rfl
    | true => exact .inl rfl
  case collision =>
    constructor
    · rintro ⟨r, c, hcov, hset⟩
      obtain ⟨hr, hc⟩ := hcov.in_grid
      exact ⟨r, c, hr, hc, hcov, hset⟩
    · rintro ⟨r, c, -, -, hcov, hset⟩
      exact ⟨r, c, hcov, hset⟩

/-- Settles O43: both draws cover the same cells, so each is flipped twice; a covered cell that the second draw finds
foreground is one the first set. -/
theorem drawingTwiceRestoresTheDisplay : Obligations.DrawingTwiceRestoresTheDisplay := by
  intro x y n s t u hfirst hcells hext hmem hi hx hy
  obtain ⟨r, hsecond⟩ : ∃ r, exec (.drw x y n) u = .next r := ⟨_, rfl⟩
  have hcov := State.spriteCovers_congr hext hmem hi hx hy n
  refine ⟨r, hsecond, Display.ext_cell fun p q _ _ => ?restored, (execDrw_vf_iff hsecond).trans ?flag⟩
  case restored =>
    have hflips := (execDrw_cell_ne_iff hsecond).trans ((hcov p q).trans (execDrw_cell_ne_iff hfirst).symm)
    rw [hcells] at hflips
    exact eq_of_ne_iff_ne (hflips.trans ne_comm)
  case flag =>
    simp only [hcov, hcells]
    constructor
    · rintro ⟨p, q, hpq, hset⟩
      obtain ⟨hp, hq⟩ := hpq.in_grid
      have hne := (execDrw_cell_ne_iff hfirst).2 hpq
      exact ⟨p, q, hp, hq, by simpa [hset] using hne, hset⟩
    · rintro ⟨p, q, -, -, hclear, hset⟩
      exact ⟨p, q, (execDrw_cell_ne_iff hfirst).1 (by simp [hclear, hset]), hset⟩

/-- Settles O40: each is a write of the cells or of the mode alone. -/
theorem clearAndModeSelection : Obligations.ClearAndModeSelection :=
  ⟨decodeWord_encode .cls, decodeWord_encode .low, decodeWord_encode .high, fun _ =>
    ⟨⟨_, rfl, rfl, Display.cell_replicate_zero, fun _ => rfl⟩, ⟨_, rfl, rfl, fun _ => rfl⟩, ⟨_, rfl, rfl, fun _ => rfl⟩⟩⟩

end Sys2Proof.Machine
end

section
/-! Timer, sound and keys: the effective delay value as a function of the clock, and what each port instruction asks of the
host and makes of the answers (44_timer_io.md). -/

namespace Sys2Proof.Machine

/-! ### The delay timer (10_state.md R30) -/

/-- The ticks elapsed are the floor of the time in ticks (10_state.md R30). -/
theorem elapsedTicks_eq_floor (now dstamp : Rat) : elapsedTicks now dstamp = ⌊(now - dstamp) * 60⌋ := rfl

@[simp] theorem elapsedTicks_self (t : Rat) : elapsedTicks t t = 0 := by
  rw [elapsedTicks_eq_floor, sub_self, zero_mul, Int.floor_zero]

theorem elapsedTicks_nonneg {now dstamp : Rat} (h : dstamp ≤ now) : 0 ≤ elapsedTicks now dstamp := by
  rw [elapsedTicks_eq_floor, Int.floor_nonneg]
  exact mul_nonneg (sub_nonneg.2 h) (by norm_num)

/-- In each 1/60 second one more tick elapses, wherever in a tick it begins. -/
theorem elapsedTicks_add_tick (now dstamp : Rat) : elapsedTicks (now + 1 / 60) dstamp = elapsedTicks now dstamp + 1 := by
  have hshift : (now + 1 / 60 - dstamp) * 60 = (now - dstamp) * 60 + 1 := by ring
  rw [elapsedTicks_eq_floor, hshift, Int.floor_add_one, elapsedTicks_eq_floor]

/-- The effective value from the reference on is a byte's. -/
theorem State.delayNow_le {s : State} {now : Rat} (h : s.dstamp ≤ now) : s.delayNow now ≤ s.dval.toNat := by
  have hticks := elapsedTicks_nonneg h
  simp only [State.delayNow]
  omega

/-- The byte that `Fx07` writes is the effective value, where the clock is not before the reference. -/
theorem State.toNat_ofInt_delayNow {s : State} {now : Rat} (h : s.dstamp ≤ now) :
    ((BitVec.ofInt 8 (s.delayNow now)).toNat : Int) = s.delayNow now := by
  have hnonneg : 0 ≤ s.delayNow now := le_max_left _ _
  have hle := State.delayNow_le h
  have hbyte := s.dval.isLt
  rw [BitVec.toNat_ofInt]
  omega

/-- Settles O45: a register write of the effective value, which fits in a byte. -/
theorem delayReadIsTheEffectiveValue : Obligations.DelayReadIsTheEffectiveValue := by
  intro x s
  refine ⟨decodeWord_encode (.ldFromDelay x), _, rfl, ?_, fun hclock => ?_⟩
  · rw [State.reg_setReg_same]
    exact s.writesReg_setReg x _
  · rw [State.reg_setReg_same]
    exact State.toNat_ofInt_delayNow hclock

/-- Settles O46: one tick more has elapsed, and the difference is cut off at 0 in both readings. -/
theorem delayFallsByOneEachTick : Obligations.DelayFallsByOneEachTick := by
  intro s now
  simp only [State.delayNow, elapsedTicks_add_tick]
  omega

/-- Settles O47: a write of the stored pair; no tick has elapsed at the sample it stores. -/
theorem delaySetStoresValueAndTime : Obligations.DelaySetStoresValueAndTime := by
  intro x s
  refine ⟨decodeWord_encode (.setDelay x), _, rfl, rfl, fun _ => rfl, ?_⟩
  simp [State.delayNow]

/-! ### Pulses and queries (10_state.md R47, R48) -/

/-- Settles O48: one port call is logged, and it is all that the pulse leaves in the state. -/
theorem beepSendsOnePulse : Obligations.BeepSendsOnePulse := fun x _ =>
  ⟨decodeWord_encode (.beep x), _, rfl, rfl, fun _ => rfl⟩

/-- A skip on a condition's negation stays where the condition holds. -/
theorem State.skipIf_not (s : State) (c : Bool) : s.skipIf (!c) = s.setPc (if c then s.pc else s.pc + 2) := by
  cases c <;> rfl

/-- Settles O49: both log the query about `V[x]`; the one skips on its answer, the other on the answer's negation. -/
theorem keySkipsFollowTheAnswer : Obligations.KeySkipsFollowTheAnswer := by
  intro x s answer asked
  refine ⟨decodeWord_encode (.skp x), decodeWord_encode (.sknp x), ⟨_, rfl, rfl, fun _ => rfl⟩, _, rfl, ?_, fun _ => rfl⟩
  exact (s.askKey 0 (s.reg x)).skipIf_not answer

/-! ### Waiting for a key (44_timer_io.md R185) -/

/-- Key `k` is the lowest whose query by `Fx0A` the host answers true. -/
def State.lowestKey (s : State) (k : Fin 16) : Prop :=
  s.env.keys[k].getLsbD k.val = true ∧ ∀ j : Fin 16, j < k → s.env.keys[j].getLsbD j.val = false

/-- The host answers every query by `Fx0A` false. -/
def State.noKey (s : State) : Prop := ∀ k : Fin 16, s.env.keys[k].getLsbD k.val = false

theorem State.lowestKey.not_noKey {s : State} {k : Fin 16} (h : s.lowestKey k) : ¬ s.noKey := fun hnone =>
  Bool.false_ne_true ((hnone k).symm.trans h.1)

theorem State.lowestKey.unique {s : State} {j k : Fin 16} (hj : s.lowestKey j) (hk : s.lowestKey k) : j = k := by
  obtain ⟨hjset, hjlow⟩ := hj
  obtain ⟨hkset, hklow⟩ := hk
  rcases lt_trichotomy j k with hlt | heq | hgt
  · exact absurd ((hklow j hlt).symm.trans hjset) Bool.false_ne_true
  · exact heq
  · exact absurd ((hjlow k hgt).symm.trans hkset) Bool.false_ne_true

/-- The log of queries about keys 0 to `n - 1`, each answered false. -/
def missedBelow (n : Nat) : List PortCall := (List.range n).map fun k => PortCall.keyTest (BitVec.ofNat 8 k) false

/-- `Fx0A` stores the lowest key pressed, or waits at itself; each query it makes is logged (R185, R186). -/
theorem execWaitKey_outcome (x : Reg) (s : State) :
    (∃ k : Fin 16, s.lowestKey k ∧ exec (.waitKey x) s = .next ((s.withCalls (s.env.calls ++ missedBelow k.val ++
        [PortCall.keyTest (BitVec.ofNat 8 k.val) true])).setReg x (BitVec.ofNat 8 k.val))) ∨
      (s.noKey ∧ exec (.waitKey x) s =
        .next { s.withCalls (s.env.calls ++ missedBelow 16) with pc := s.pc - 2, status := .waiting }) := by
  have hexec : exec (.waitKey x) s = .next (State.afterPoll x (State.pollKeys allKeys s)) := rfl
  rw [hexec]
  rcases s.pollKeys_allKeys with ⟨n, hn, hset, hlow, hpoll⟩ | ⟨hnone, hpoll⟩ <;> rw [hpoll]
  · have hwiden : (BitVec.ofNat 4 n).setWidth 8 = BitVec.ofNat 8 n := BitVec.setWidth_ofNat_of_le_of_lt (by decide) hn
    exact .inl ⟨⟨n, hn⟩, ⟨hset, fun j hj => hlow j.val hj⟩, hwiden ▸ rfl⟩
  · exact .inr ⟨fun k => hnone k.val k.isLt, rfl⟩

/-- Settles O50: the lowest key pressed is the one the rule stores, and it excludes the wait. -/
theorem waitKeyStoresTheLowestKeyOrRewinds : Obligations.WaitKeyStoresTheLowestKeyOrRewinds := by
  intro x s
  refine ⟨decodeWord_encode (.waitKey x), ?_⟩
  rcases execWaitKey_outcome x s with ⟨n, hlowest, hexec⟩ | ⟨hnone, hexec⟩
  · refine ⟨_, hexec, fun _ => rfl, fun k hset hlow => ?_, fun h => absurd h hlowest.not_noKey⟩
    obtain rfl : n = k := hlowest.unique ⟨hset, hlow⟩
    exact ⟨State.reg_setReg_same _ _ _, fun _ hz => State.reg_setReg_other _ _ hz, rfl⟩
  · exact ⟨_, hexec, fun _ => rfl, fun k hset hlow => absurd hnone (State.lowestKey.not_noKey ⟨hset, hlow⟩), fun _ => rfl⟩

/-- A state that waits steps by running the instruction before its pc again, from there. -/
theorem step_of_rewound {i : Instr} {s t : State} (hh : s.halted = false)
    (hd : decode (s.readByte (s.pc - 2)) (s.readByte (s.pc - 1)) = .ok i)
    (ht : t = { s with pc := s.pc - 2, status := t.status, env := t.env }) :
    step t = exec i { s with status := .ok, env := t.env.draw } := by
  have hnext : s.pc - 2 + 1 = s.pc - 1 := by bv_omega
  have hdecoded : t.decoded = .ok i := by
    rw [← hnext] at hd
    rw [ht]
    exact hd
  have hbegin : t.begin = { s with status := .ok, env := t.env.draw } := by
    rw [ht]
    simp [State.begin]
  rw [step_of_decoded_ok (by rw [ht]; exact hh) hdecoded, hbegin]

/-- Only an `Fx0A` that finds no key pressed ends with the status WAITING. -/
theorem exec_waiting {i : Instr} {s t : State} (hok : s.status = .ok) (h : exec i s = .next t)
    (hwaits : t.status = .waiting) : (∃ x, i = .waitKey x) ∧ s.noKey := by
  have hne : s.status ≠ .waiting := by simp [hok]
  by_cases hw : Part.status ∈ i.writes
  · obtain ⟨nnn, rfl⟩ | rfl | ⟨x, rfl⟩ := Instr.status_mem_writes.1 hw
    · obtain ⟨-, rfl⟩ | ⟨_, rfl⟩ := execCall_cases h
      · cases hwaits
      · exact absurd hwaits hne
    · obtain ⟨-, rfl⟩ | ⟨-, rfl⟩ := execRet_cases h
      · cases hwaits
      · exact absurd hwaits hne
    · rcases execWaitKey_outcome x s with ⟨k, -, hexec⟩ | ⟨hnone, -⟩
      · cases hexec.symm.trans h
        exact absurd hwaits hne
      · exact ⟨⟨x, rfl⟩, hnone⟩
  · have hsame : t.status = s.status := exec_differsOnlyIn h .status hw
    exact absurd (hsame.symm.trans hwaits) hne

/-- Settles O51: an unanswered `Fx0A` is rewound and so is what the next step runs; nothing else waits. -/
theorem waitingRepeatsTheInstruction : Obligations.WaitingRepeatsTheInstruction := by
  refine ⟨fun x s hh hd hnone => ?_, fun i s t hok h hwaits => exec_waiting hok h hwaits⟩
  obtain ⟨-, hexec⟩ := (execWaitKey_outcome x s).resolve_left fun ⟨_, hlowest, _⟩ => hlowest.not_noKey hnone
  exact ⟨_, hexec, rfl, step_of_rewound hh hd rfl⟩

/-- The queries of `Fx0A`: the last is the first answered true, or the one about key 15 (R186). -/
theorem execWaitKey_calls {x : Reg} {s t : State} (h : exec (.waitKey x) s = .next t) :
    ∃ n : Nat, n < 16 ∧ ∃ b, (b = true ∨ n = 15) ∧
      t.env.calls = s.env.calls ++ missedBelow n ++ [PortCall.keyTest (BitVec.ofNat 8 n) b] := by
  rcases execWaitKey_outcome x s with ⟨k, -, hexec⟩ | ⟨-, hexec⟩ <;> cases hexec.symm.trans h
  · exact ⟨k.val, k.isLt, true, .inl rfl, rfl⟩
  · have hlast : missedBelow 16 = missedBelow 15 ++ [PortCall.keyTest (BitVec.ofNat 8 15) false] := rfl
    exact ⟨15, by decide, false, .inr rfl, (congrArg _ hlast).trans (List.append_assoc _ _ _).symm⟩

/-- Settles O52: only four instructions may write the list of calls, and each appends its own. -/
theorem portCallsOfEachInstruction : Obligations.PortCallsOfEachInstruction := by
  intro i s t h
  cases i with
  | skp x | sknp x => cases h; exact ⟨s.keyAnswer 0 (s.reg x), rfl⟩
  | beep x => cases h; rfl
  | waitKey x => exact execWaitKey_calls h
  | _ => exact exec_differsOnlyIn h .ports (by simp [Instr.writes])

end Sys2Proof.Machine
end

section
/-! Faults and the halted core: the cause a step records as a function of the state it starts from, every instruction's next
state, and what the host's commands leave of a halted core (60_exceptions.md). -/

namespace Sys2Proof

/-- Only the call and the return may write the fault latch. -/
theorem Instr.latch_mem_writes {i : Instr} : Part.latch ∈ i.writes ↔ (∃ nnn, i = .call nnn) ∨ i = .ret := by
  cases i <;> simp [Instr.writes]

end Sys2Proof

namespace Sys2Proof.Machine

/-! ### The cause of a raise (60_exceptions.md R200) -/

/-- The cause an instruction raises, run in a state; `none` where it completes. -/
def State.causeOf (s : State) : Instr → FaultCause
  | .call _ => if s.sp.val = 16 then .stackOverflow else .none
  | .ret => if s.sp.val = 0 then .stackUnderflow else .none
  | _ => .none

/-- The cause a step raises, for what its two bytes decode to; `none` where it completes. -/
def State.stepCause (s : State) : FaultCause :=
  match s.decoded with
  | .ok i => s.causeOf i
  | .error _ => .unrecognizedOpcode

theorem State.causeOf_ne_unrecognizedOpcode (s : State) (i : Instr) : s.causeOf i ≠ .unrecognizedOpcode := by
  cases i <;> simp [State.causeOf, ite_eq_iff]

theorem State.causeOf_eq_stackOverflow {s : State} {i : Instr} :
    s.causeOf i = .stackOverflow ↔ (∃ nnn, i = .call nnn) ∧ s.sp.val = 16 := by
  cases i <;> simp [State.causeOf, ite_eq_iff]

theorem State.causeOf_eq_stackUnderflow {s : State} {i : Instr} :
    s.causeOf i = .stackUnderflow ↔ i = .ret ∧ s.sp.val = 0 := by
  cases i <;> simp [State.causeOf, ite_eq_iff]

theorem State.stepCause_eq_unrecognizedOpcode {s : State} :
    s.stepCause = .unrecognizedOpcode ↔ ∀ i, s.decoded ≠ .ok i := by
  unfold State.stepCause
  split
  · next i hd => simp [hd, s.causeOf_ne_unrecognizedOpcode i]
  · next e hd => simp [hd]

theorem State.stepCause_eq_stackOverflow {s : State} :
    s.stepCause = .stackOverflow ↔ (∃ nnn, s.decoded = .ok (.call nnn)) ∧ s.sp.val = 16 := by
  unfold State.stepCause
  split
  · next i hd => simp [hd, State.causeOf_eq_stackOverflow]
  · next e hd => simp [hd]

theorem State.stepCause_eq_stackUnderflow {s : State} :
    s.stepCause = .stackUnderflow ↔ s.decoded = .ok .ret ∧ s.sp.val = 0 := by
  unfold State.stepCause
  split
  · next i hd => simp [hd, State.causeOf_eq_stackUnderflow]
  · next e hd => simp [hd]

/-! ### What an instruction and a step do, by the cause -/

/-- An instruction that has a cause raises it, with its own encoding as the bytes (60_exceptions.md R201). -/
theorem exec_of_cause {s : State} {i : Instr} (hc : s.causeOf i ≠ .none) :
    exec i s = .next (s.raise (s.causeOf i) (encode i)) := by
  cases i with
  | call nnn =>
    have hsp : s.sp.val = 16 := (ite_ne_right_iff.1 hc).1
    rw [State.causeOf, if_pos hsp]
    exact execCall_of_full nnn s hsp
  | ret =>
    have hsp : s.sp.val = 0 := (ite_ne_right_iff.1 hc).1
    rw [State.causeOf, if_pos hsp]
    exact execRet_of_empty s hsp
  | _ => exact absurd rfl hc

/-- An instruction that has no cause to raise leaves the core halted or not, as it was. -/
theorem exec_halted_of_no_cause {s t : State} {i : Instr} (hc : s.causeOf i = .none) (h : exec i s = .next t) :
    t.halted = s.halted := by
  by_cases hw : Part.latch ∈ i.writes
  · obtain ⟨nnn, rfl⟩ | rfl := Instr.latch_mem_writes.1 hw
    · obtain ⟨hsp, -⟩ | ⟨-, rfl⟩ := execCall_cases h
      · simp [State.causeOf, hsp] at hc
      · rfl
    · obtain ⟨hsp, -⟩ | ⟨-, rfl⟩ := execRet_cases h
      · simp [State.causeOf, hsp] at hc
      · rfl
  · exact congrArg Prod.fst (exec_differsOnlyIn h .latch hw)

section
variable {s : State} (hh : s.halted = false)
include hh

/-- A step that has a cause raises it, with the two fetched bytes, at each of the three places that raise
(60_exceptions.md R201). -/
theorem step_of_cause (hc : s.stepCause ≠ .none) : step s = .next (s.begin.raise s.stepCause s.wordAtPc) := by
  unfold State.stepCause at hc ⊢
  split at hc
  · next i hd =>
    have hword : encode i = s.wordAtPc := encode_eq_of_decodeWord hd
    rw [step_of_decoded_ok hh hd, ← hword]
    exact exec_of_cause (s := s.begin) hc
  · next e hd => exact step_of_decoded_error hh hd

/-- A step that has no cause to raise ends with the core not halted. -/
theorem step_halted_of_no_cause {t : State} (hc : s.stepCause = .none) (h : step s = .next t) : t.halted = false := by
  unfold State.stepCause at hc
  split at hc
  · next i hd => exact (exec_halted_of_no_cause (s := s.begin) hc (exec_of_step h hd)).trans hh
  · cases hc

/-- A step ends halted with a cause exactly when that is the cause it has. -/
theorem step_halts_with_iff {t : State} (h : step s = .next t) {c : FaultCause} (hne : c ≠ .none) :
    t.halted = true ∧ t.faultCause = c ↔ s.stepCause = c := by
  by_cases hc : s.stepCause = .none
  · simp [step_halted_of_no_cause hh hc h, hc, hne.symm]
  · cases (step_of_cause hh hc).symm.trans h
    simp

/-- No step ends halted without a cause. -/
theorem step_faultCause_ne_none {t : State} (h : step s = .next t) (ht : t.halted = true) : t.faultCause ≠ .none := by
  by_cases hc : s.stepCause = .none
  · simp [step_halted_of_no_cause hh hc h] at ht
  · cases (step_of_cause hh hc).symm.trans h
    exact hc

end

/-- A raise in the state a step begins with records the address that was fetched from, 2 before the pc
(60_exceptions.md R201). -/
theorem State.begin_raise (s : State) (c : FaultCause) (w : Word) :
    s.begin.raise c w = { s with pc := s.pc + 2, halted := true, faultPc := s.pc, faultCause := c, status := .fault,
                                 faultBytes := w, env := s.env.draw } := by
  rw [State.raise, State.begin_fpc]
  rfl

/-- Settles O7: each of the three conditions is a cause of the step. -/
theorem raiseSetsTheLatch : Obligations.RaiseSetsTheLatch := by
  intro s hh raised
  have hraise : ∀ c, c ≠ .none → s.stepCause = c → step s = .next (raised c) := by
    rintro _ hne rfl
    exact (step_of_cause hh hne).trans (congrArg _ (s.begin_raise _ _))
  exact ⟨fun hd => hraise _ (by decide) (State.stepCause_eq_unrecognizedOpcode.2 hd),
    fun nnn hd hsp => hraise _ (by decide) (State.stepCause_eq_stackOverflow.2 ⟨⟨nnn, hd⟩, hsp⟩),
    fun hd hsp => hraise _ (by decide) (State.stepCause_eq_stackUnderflow.2 ⟨hd, hsp⟩)⟩

/-- Settles O8: the cause recorded is the cause the step has, and that is each cause on its own condition. -/
theorem onlyThreeConditionsFault : Obligations.OnlyThreeConditionsFault := by
  refine ⟨fun s t hh h => ⟨?_, ?_, ?_, step_faultCause_ne_none hh h⟩, rfl, rfl, rfl, rfl⟩
  · exact (step_halts_with_iff hh h (by decide)).trans State.stepCause_eq_unrecognizedOpcode
  · exact (step_halts_with_iff hh h (by decide)).trans State.stepCause_eq_stackOverflow
  · exact (step_halts_with_iff hh h (by decide)).trans State.stepCause_eq_stackUnderflow

/-! ### Every instruction completes (60_exceptions.md section 1) -/

/-- The call and the return answer a raise where the stack is full or empty; every other rule answers a state outright. -/
theorem exec_next (i : Instr) (s : State) : ∃ t, exec i s = .next t := by
  cases i with
  | call nnn =>
    by_cases hsp : s.sp.val = 16
    · exact ⟨_, execCall_of_full nnn s hsp⟩
    · exact ⟨_, execCall_of_lt nnn s (by omega)⟩
  | ret =>
    by_cases hsp : s.sp.val = 0
    · exact ⟨_, execRet_of_empty s hsp⟩
    · exact ⟨_, execRet_of_pos s hsp⟩
  | _ => exact ⟨_, rfl⟩

/-- Settles O9: a step runs an instruction or raises. -/
theorem everyInstructionCompletes : Obligations.EveryInstructionCompletes := by
  refine ⟨exec_next, fun s hh => ?_⟩
  cases hd : s.decoded with
  | ok i => exact step_of_decoded_ok hh hd ▸ exec_next i s.begin
  | error e => exact ⟨_, step_of_decoded_error hh hd⟩

/-! ### The halted core (60_exceptions.md R202) -/

theorem step_of_halted {s : State} (hh : s.halted = true) :
    step s = .fault (.illegalInstruction s.faultCause s.faultPc s.faultBytes) := if_pos hh

theorem State.load_of_inRun {s : State} (hr : s.env.inRun = true) (font : Font) (program : List Byte) :
    s.load font program = .refused .loadDuringRun := if_pos hr

/-- What a LOAD that is not refused has done: no run was in progress, the program fits, and it wrote the launch image
(70_reset_and_hazards.md R222, R223). -/
theorem State.load_cases {s t : State} {font : Font} {program : List Byte} (h : s.load font program = .next t) :
    s.env.inRun = false ∧ program.length ≤ Config.maxProgram ∧ t = { s with mem := Memory.image s.mem font program } := by
  unfold State.load at h
  split_ifs at h with hr hlen
  exact ⟨by simpa using hr, by omega, (Host.Outcome.next.inj h).symm⟩

/-- Settles O10: of the commands besides RESET, a STEP of a halted core gives no next state and a LOAD writes memory
alone. -/
theorem haltedUntilReset : Obligations.HaltedUntilReset := by
  intro s hh
  refine ⟨step_of_halted hh, State.load_of_inRun, fun c t hc h => ?_, _, rfl, rfl, rfl⟩
  cases c with
  | step => cases (step_of_halted hh).symm.trans h
  | reset => exact absurd rfl hc
  | load font program =>
    obtain ⟨-, -, rfl⟩ := State.load_cases h
    exact ⟨hh, rfl, rfl, rfl, rfl⟩

end Sys2Proof.Machine
end

section
/-! RESET and LOAD, the commands that set up a run, and the state a parked run stays in (70_reset_and_hazards.md). -/

namespace Sys2Proof.Machine

/-! ### The reset values (70_reset_and_hazards.md R220, R221) -/

/-- The reset values keep the latch consistent: no halt, no cause, status OK. -/
theorem State.reset_latchInv : State.reset.latchInv := by decide

/-- Every stack entry is 0 at reset. -/
theorem State.reset_stack (k : Fin 16) : State.reset.stack[k] = 0 := Vector.getElem_replicate k.isLt

theorem State.reset_stackInv : State.reset.stackInv := fun k => by
  rw [State.reset_stack]
  decide

/-- Every register is 0 at reset. -/
theorem State.reset_reg (x : Reg) : State.reset.reg x = 0 := Vector.getElem_replicate x.isLt

/-- Settles O14: the power-on memory lists no byte, and both times are 0, which every clock can show. -/
theorem powerOnHasTheInvariant : Obligations.PowerOnHasTheInvariant :=
  ⟨State.reset_mem_wf, State.reset_stackInv, ⟨le_rfl, le_rfl, atResolution_zero _, atResolution_zero _⟩,
    State.reset_latchInv⟩

/-- A RESET keeps the invariant: it sets the timer's reference to a sample that is not before the old one. -/
theorem State.Inv_resetCommand {s : State} (h : s.Inv) : s.resetCommand.Inv := by
  obtain ⟨hmem, -, ⟨hpos, hle, -, hnow⟩, -⟩ := h
  have hsample : atResolution Config.clockResolution s.env.draw.now = s.env.draw.now := Env.atResolution_nextNow hnow
  have hclock : s.resetCommand.clockInv :=
    ⟨(hpos.trans hle).trans (Env.le_nextNow _ _), le_rfl, hsample, hsample⟩
  exact ⟨hmem, State.reset_stackInv, hclock, State.reset_latchInv⟩

/-- Settles O13: a RESET gives the reset values and one more sample, a LOAD a canonical memory. -/
theorem resetAndLoadKeepTheInvariant : Obligations.ResetAndLoadKeepTheInvariant := by
  rintro s t hinv (h | ⟨font, program, h⟩)
  · cases h
    exact State.Inv_resetCommand hinv
  · obtain ⟨-, hlen, rfl⟩ := State.load_cases h
    obtain ⟨hmem, hrest⟩ := hinv
    exact ⟨Memory.image_wf font hmem hlen, hrest⟩

/-- A timer whose stored value is 0 reads 0 from its reference on. -/
theorem State.delayNow_of_dval_zero {s : State} {now : Rat} (hd : s.dval = 0) (h : s.dstamp ≤ now) :
    s.delayNow now = 0 := by
  have hle : s.delayNow now ≤ 0 := by simpa [hd] using State.delayNow_le h
  exact le_antisymm hle (le_max_left _ _)

/-- Settles O16: RESET answers the reset values over the memory it finds, with one more sample. -/
theorem resetGivesTheResetValues : Obligations.ResetGivesTheResetValues := fun s =>
  ⟨s.resetCommand, rfl, State.reset_reg, rfl, rfl, rfl, State.reset_stack, rfl, rfl, Display.cell_replicate_zero, rfl,
    rfl, rfl, fun _ => rfl, fun _ => State.delayNow_of_dval_zero rfl⟩

/-- Settles O17: the power-on memory lists no byte, and the power-on state is made of the reset values. -/
theorem powerOnIsTheResetState : Obligations.PowerOnIsTheResetState :=
  ⟨fun _ => rfl, State.reset.resetCommand, rfl, rfl⟩

/-! ### The launch image (70_reset_and_hazards.md R222) -/

/-- A byte of the font table is the declared nibble of its glyph and scan row, in the high half (20_memory.md R56). -/
theorem Font.getElem?_bytes (font : Font) {k : Nat} (hk : k < 80) :
    (Font.bytes font).toList[k]? =
      some (glyphByte ((font[k / 5]'(by omega))[k % 5]'(Nat.mod_lt _ (by decide)))) := by
  simp [Font.bytes, hk]

/-- What every address reads after a launch: the font below 80, the program from 0x200, and elsewhere the old byte. -/
theorem Memory.read_image {m : Memory} (font : Font) (program : List Byte) (a : Nat) (h : Memory.wf m) :
    Memory.read (Memory.image m font program) a =
      if ha : a < 80 then glyphByte ((font[a / 5]'(by omega))[a % 5]'(Nat.mod_lt _ (by decide)))
      else if 0x200 ≤ a ∧ a < 0x200 + program.length then program[a - 0x200]?.getD 0
      else Memory.read m a := by
  have hfont : Memory.wf (Memory.writeBytes m Config.fontBase (Font.bytes font).toList) :=
    Memory.writeBytes_wf _ h (by simp [Config.memSize])
  rw [Memory.image, Memory.read_writeBytes _ _ _ _ hfont.1, Memory.read_writeBytes _ _ _ _ h.1]
  by_cases ha : a < 80
  · rw [dif_pos ha, if_neg (by simp only [Config.programBase]; omega), if_pos (by simpa using ha), Nat.sub_zero,
      Font.getElem?_bytes font ha, Option.getD_some]
  · rw [dif_neg ha, if_neg (c := Config.fontBase ≤ a ∧ _) (by simpa using ha)]

/-- A LOAD outside a run of a program that fits writes the launch image. -/
theorem State.load_of_fits {s : State} {program : List Byte} (hr : s.env.inRun = false)
    (hlen : program.length ≤ Config.maxProgram) (font : Font) :
    s.load font program = .next { s with mem := Memory.image s.mem font program } := by
  rw [State.load, if_neg (by simp [hr]), if_neg (by omega)]

/-- A LOAD outside a run of a program that does not fit is refused. -/
theorem State.load_of_oversize {s : State} {program : List Byte} (hr : s.env.inRun = false)
    (hlen : Config.maxProgram < program.length) (font : Font) : s.load font program = .refused .oversizeProgram := by
  rw [State.load, if_neg (by simp [hr]), if_pos hlen]

/-- Settles O18: outside a run, the length of the program alone decides between a refusal and the launch image. -/
theorem loadWritesTheLaunchImage : Obligations.LoadWritesTheLaunchImage := fun _ font program hr =>
  ⟨fun hlen => State.load_of_oversize hr hlen font,
    fun hlen hmem => ⟨_, State.load_of_fits hr hlen font, rfl,
      fun a => Memory.read_image font program a.toNat hmem⟩⟩

/-! ### The order of RESET, LOAD and STEP (70_reset_and_hazards.md R223) -/

/-- After any step a run is in progress. -/
theorem step_inRun {s t : State} (h : step s = .next t) : t.env.inRun = true :=
  congrArg (fun u => u.2.2.2.2) (step_inputs h)

/-- Settles O19: RESET does not read or write memory, LOAD does nothing else, and a step begins a run. -/
theorem resetAndLoadCommute : Obligations.ResetAndLoadCommute := by
  constructor
  · intro s t u font program _ hreset hload
    cases hreset
    obtain ⟨-, hlen, rfl⟩ := State.load_cases hload
    exact State.load_of_fits rfl hlen font
  · intro s t font program h
    exact State.load_of_inRun (step_inRun h) font program

/-! ### A parked run (70_reset_and_hazards.md R227) -/

/-- A step of a parked state draws the inputs, sets the status OK and jumps to where it was. -/
theorem step_of_parked {s : State} (h : s.parked) : step s = .next { s with status := .ok, env := s.env.draw } := by
  obtain ⟨hh, hd⟩ := h
  rw [step_of_decoded_ok hh hd]
  rfl

/-- Being parked depends on the block alone. -/
theorem State.parked.of_sameBlock {s t : State} (h : s.parked) (hst : s.sameBlock t) : t.parked := by
  rw [State.sameBlock] at hst
  rw [hst]
  exact h

/-- Settles O60: the jump to itself restores the pc, and what is left differs outside the block alone. -/
theorem parkedStaysParked : Obligations.ParkedStaysParked := by
  intro s h
  have hst : s.sameBlock { s with status := .ok, env := s.env.draw } := rfl
  exact ⟨_, step_of_parked h, hst, h.of_sameBlock hst, rfl⟩

end Sys2Proof.Machine
end
